-- ==== Sys2Proof/Word.lean ====
section
/-! DEFINITION. The data unit of the machine (00_scope.md R5): the unsigned byte, and the index of one of the eight registers. -/

namespace Sys2Proof

/-- A byte: registers, memory cells, operand bytes and addresses are all 8 bits wide and unsigned (R5). -/
abbrev Byte := BitVec 8

/-- The index of one of the eight registers `x[0]` to `x[7]` (10_state.md R10). -/
abbrev Reg := Fin 8

/-- The operand byte that names register `r`: the index as it stands (30_encoding.md R60). -/
def regByte (r : Reg) : Byte := BitVec.ofNat 8 r.val

end Sys2Proof
end

