-- ==== Sys2Proof/Config.lean ====
section
/-! DEFINITION. The parameters of 00_scope.md R4 that have a value, and the fixed names the parameter OPCODE_MAP is a map
of: the 26 mnemonics, their formats, and which of them write PC themselves. The map itself is `opcodeOf` in Decode.lean.
The policies of R4 are behaviours, not values: ADDR_WRAP in Machine/Ops.lean, BAD_REG_POLICY in Machine/Operands.lean,
BAD_OPCODE_POLICY in Machine/Fetch.lean, STACK_CHECK (none) in Machine/StackCall.lean. -/

namespace Sys2Proof

/-- The 26 instructions of the fixed set (30_encoding.md R55). -/
inductive Mnemonic where
  | hlt | ret | push | pop | prn | pra | call | jmp | jeq | jne | jgt | jlt | jle | jge | not
  | ldi | st | add | mul | mod | cmp | and | or | xor | shl | shr
  deriving DecidableEq, Repr

/-- The four instruction formats (R51): no operand, one register, two registers, register and immediate. -/
inductive Format where
  | z | r | rr | ri
  deriving DecidableEq, Repr

/-- How many operand bytes a format has (R51). -/
def Format.operandCount : Format → Nat
  | .z => 0
  | .r => 1
  | .rr => 2
  | .ri => 2

/-- The format of each instruction (the lists of R51). -/
def Mnemonic.format : Mnemonic → Format
  | .hlt | .ret => .z
  | .not | .push | .pop | .prn | .pra | .jmp | .jeq | .jne | .jgt | .jlt | .jge | .jle | .call => .r
  | .add | .mul | .mod | .and | .or | .xor | .shl | .shr | .cmp | .st => .rr
  | .ldi => .ri

/-- Whether the instruction writes PC itself, so that the cycle must not advance it (the list of R54). -/
def Mnemonic.selfManagesPc : Mnemonic → Bool
  | .jmp | .jeq | .jne | .jgt | .jlt | .jge | .jle | .call | .ret => true
  | .hlt | .not | .push | .pop | .prn | .pra | .add | .mul | .mod | .and | .or | .xor | .shl | .shr | .cmp | .st
  | .ldi => false

namespace Config

/-- `SP_INDEX`: the register that is the stack pointer (10_state.md R11). -/
abbrev spIndex : Reg := 7

/-- `MEMSIZE`: memory cells, addresses 0..255 (R21). -/
abbrev memSize : Nat := 256

/-- `PC_RESET` (R25). -/
abbrev pcReset : Byte := 0x00

/-- `SP_RESET` (R24). -/
abbrev spReset : Byte := 0xF4

/-- `REG_RESET`, registers 0..6 (R24). -/
abbrev regReset : Byte := 0x00

/-- `FL_RESET` (R27). DESIGN CHOICE of the spec (D2), unsafe: the source does not state it (log 2). -/
abbrev flReset : Byte := 0x00

/-- `MEM_RESET`: what a cell reads as that nothing has written (R26). -/
abbrev memReset : Byte := 0x00

/-- `FAULT_CODES`: UnsupportedInstruction is 1 (60_exceptions.md R150). DESIGN CHOICE of the spec (D10), safe: naming only (log 10). -/
abbrev codeUnsupportedInstruction : Byte := 1

/-- `FAULT_CODES`: InvalidRegisterIndex is 2 (R151). DESIGN CHOICE of the spec (D10), safe: naming only (log 10). -/
abbrev codeInvalidRegisterIndex : Byte := 2

/-- `LINE_TERMINATOR` written by PRN: LF (44_data_movement.md R145). DESIGN CHOICE of the spec (D9), unsafe for rendered text (log 9). -/
abbrev lineTerminator : Nat := 0x0A

end Config

end Sys2Proof
end

