-- ==== Sys2Proof/Syntax.lean ====
section
/-! DEFINITION. The instruction set as syntax: one constructor per row of spec/opcode_table.json (30_encoding.md R55). -/

namespace Sys2Proof

/-- An instruction with its own operand bytes as fetched: `a` is the operand byte opa, `b` the operand byte opb, `imm8` the
immediate opb of LDI (R51). A register operand is the raw byte, because an index in 8..255 is an instruction with a meaning
of its own: it raises InvalidRegisterIndex (R59, R72). DESIGN CHOICE, safe (log 23). -/
inductive Instr where
  | hlt
  | ret
  | push (a : Byte)
  | pop (a : Byte)
  | prn (a : Byte)
  | pra (a : Byte)
  | call (a : Byte)
  | jmp (a : Byte)
  | jeq (a : Byte)
  | jne (a : Byte)
  | jgt (a : Byte)
  | jlt (a : Byte)
  | jle (a : Byte)
  | jge (a : Byte)
  | not (a : Byte)
  | ldi (a imm8 : Byte)
  | st (a b : Byte)
  | add (a b : Byte)
  | mul (a b : Byte)
  | mod (a b : Byte)
  | cmp (a b : Byte)
  | and (a b : Byte)
  | or (a b : Byte)
  | xor (a b : Byte)
  | shl (a b : Byte)
  | shr (a b : Byte)
  deriving DecidableEq, Repr

/-- Which of the 26 instructions it is. -/
def Instr.mnemonic : Instr → Mnemonic
  | .hlt => .hlt
  | .ret => .ret
  | .push _ => .push
  | .pop _ => .pop
  | .prn _ => .prn
  | .pra _ => .pra
  | .call _ => .call
  | .jmp _ => .jmp
  | .jeq _ => .jeq
  | .jne _ => .jne
  | .jgt _ => .jgt
  | .jlt _ => .jlt
  | .jle _ => .jle
  | .jge _ => .jge
  | .not _ => .not
  | .ldi _ _ => .ldi
  | .st _ _ => .st
  | .add _ _ => .add
  | .mul _ _ => .mul
  | .mod _ _ => .mod
  | .cmp _ _ => .cmp
  | .and _ _ => .and
  | .or _ _ => .or
  | .xor _ _ => .xor
  | .shl _ _ => .shl
  | .shr _ _ => .shr

/-- The operand bytes the format designates as register indices, in the order they are checked: opa, then opb (R59, R72).
The immediate of LDI is none of them. -/
def Instr.regOperands : Instr → List Byte
  | .hlt | .ret => []
  | .push a | .pop a | .prn a | .pra a | .call a | .jmp a | .jeq a | .jne a | .jgt a | .jlt a | .jle a | .jge a | .not a => [a]
  | .ldi a _ => [a]
  | .st a b | .add a b | .mul a b | .mod a b | .cmp a b | .and a b | .or a b | .xor a b | .shl a b | .shr a b => [a, b]

/-- All operand bytes of the instruction in memory order (R51): its register operands, and the immediate of LDI. -/
def Instr.operandBytes : Instr → List Byte
  | .hlt | .ret => []
  | .push a | .pop a | .prn a | .pra a | .call a | .jmp a | .jeq a | .jne a | .jgt a | .jlt a | .jle a | .jge a | .not a => [a]
  | .ldi a imm8 => [a, imm8]
  | .st a b | .add a b | .mul a b | .mod a b | .cmp a b | .and a b | .or a b | .xor a b | .shl a b | .shr a b => [a, b]

end Sys2Proof
end

