-- ==== Sys2Proof/WellFormed.lean ====
section
/-! DEFINITION. Which instructions are well formed: every register operand byte is in 0..7 (30_encoding.md R59). -/

namespace Sys2Proof

/-- The first register operand byte out of range, opa before opb (R72, R155): the byte that InvalidRegisterIndex reports. -/
def Instr.badOperand (i : Instr) : Option Byte := i.regOperands.find? fun w => decide (7 < w.toNat)

/-- Every register operand byte has a value in 0..7 (R59). -/
def Instr.wf (i : Instr) : Bool := i.regOperands.all fun w => decide (w.toNat ≤ 7)

end Sys2Proof
end

