-- ==== Sys2Proof/Decode.lean ====
section
/-! DEFINITION. The opcode map (30_encoding.md R55), the decoder (R56), total on all bytes and rejecting by name, the encoder
written from the same map and the formats of R51, and the reading of a word numbered as spec/opcode_table.json numbers it. -/

namespace Sys2Proof

/-- `OPCODE_MAP` (R55): the one place the opcode numbers stand. PRESUMED, unsafe: the spec takes the numbers from general
knowledge of the public LS-8 (D1; log 1); it constrains them by R53 and R54. -/
def opcodeOf : Mnemonic → Byte
  | .hlt => 0x01
  | .ret => 0x11
  | .push => 0x45
  | .pop => 0x46
  | .prn => 0x47
  | .pra => 0x48
  | .call => 0x50
  | .jmp => 0x54
  | .jeq => 0x55
  | .jne => 0x56
  | .jgt => 0x57
  | .jlt => 0x58
  | .jle => 0x59
  | .jge => 0x5A
  | .not => 0x69
  | .ldi => 0x82
  | .st => 0x84
  | .add => 0xA0
  | .mul => 0xA2
  | .mod => 0xA4
  | .cmp => 0xA7
  | .and => 0xA8
  | .or => 0xAA
  | .xor => 0xAB
  | .shl => 0xAC
  | .shr => 0xAD

/-- The rows of the opcode table, in its order. -/
def allMnemonics : List Mnemonic :=
  [.hlt, .ret, .push, .pop, .prn, .pra, .call, .jmp, .jeq, .jne, .jgt, .jlt, .jle, .jge, .not,
   .ldi, .st, .add, .mul, .mod, .cmp, .and, .or, .xor, .shl, .shr]

/-- The lookup of R56: all eight bits of the opcode byte are matched. -/
def mnemonicOf (ir : Byte) : Option Mnemonic := allMnemonics.find? fun m => opcodeOf m == ir

/-- The instruction of a row with its operand bytes; bytes beyond the instruction's own length are dropped (R51, R70). -/
def Mnemonic.instr (m : Mnemonic) (opa opb : Byte) : Instr :=
  match m with
  | .hlt => .hlt
  | .ret => .ret
  | .push => .push opa
  | .pop => .pop opa
  | .prn => .prn opa
  | .pra => .pra opa
  | .call => .call opa
  | .jmp => .jmp opa
  | .jeq => .jeq opa
  | .jne => .jne opa
  | .jgt => .jgt opa
  | .jlt => .jlt opa
  | .jle => .jle opa
  | .jge => .jge opa
  | .not => .not opa
  | .ldi => .ldi opa opb
  | .st => .st opa opb
  | .add => .add opa opb
  | .mul => .mul opa opb
  | .mod => .mod opa opb
  | .cmp => .cmp opa opb
  | .and => .and opa opb
  | .or => .or opa opb
  | .xor => .xor opa opb
  | .shl => .shl opa opb
  | .shr => .shr opa opb

/-- Why bytes are no instruction. -/
inductive DecodeError where
  /-- The opcode byte is not in the table (R57). -/
  | unsupportedOpcode (ir : Byte)
  /-- A byte list ends before the instruction does; the machine's fetch, which always has three bytes, never meets it (log 26). -/
  | truncated
  deriving DecidableEq, Repr

/-- Decoding the three fetched bytes (R71): the operand bytes never take part in selecting the instruction (R56). -/
def decode (ir opa opb : Byte) : Except DecodeError Instr :=
  match mnemonicOf ir with
  | none => .error (.unsupportedOpcode ir)
  | some m => .ok (m.instr opa opb)

/-- Decoding the first instruction of a byte list; answers the instruction and the bytes after it. -/
def decodeBytes : List Byte → Except DecodeError (Instr × List Byte)
  | [] => .error .truncated
  | ir :: rest =>
    match mnemonicOf ir with
    | none => .error (.unsupportedOpcode ir)
    | some m =>
      match m.format.operandCount, rest with
      | 0, _ => .ok (m.instr 0 0, rest)
      | 1, opa :: rest' => .ok (m.instr opa 0, rest')
      | 2, opa :: opb :: rest' => .ok (m.instr opa opb, rest')
      | _, _ => .error .truncated

/-- The bytes of an instruction, opcode first, at rising addresses (R30, R51). -/
def encode (i : Instr) : List Byte := opcodeOf i.mnemonic :: i.operandBytes

/-- Byte `k` of a word whose bit 0 is the least significant bit of its first byte, with every bit from `nbits` on read as 0. -/
def tableByte (nbits w k : Nat) : Byte := BitVec.ofNat 8 (w % 2 ^ nbits / 2 ^ (8 * k))

/-- The instruction the decoder reads from a table word: byte 0 is the opcode, later bytes the operands, missing bytes 0. -/
def decodeTableWord (nbits w : Nat) : Option Instr :=
  match decode (tableByte nbits w 0) (tableByte nbits w 1) (tableByte nbits w 2) with
  | .ok i => some i
  | .error _ => none

end Sys2Proof
end

