-- ==== Sys2Proof/Machine/State.lean ====
section
/-! DEFINITION. The whole state of the machine as plain data (10_state.md), the fatal conditions, the stops of the step
function, and the state after reset. -/

namespace Sys2Proof.Machine

/-- The run state: the three values a run takes (10_state.md R18), and the one before the run. -/
inductive RunState where
  /-- Reset, and the run not started: the core is not yet stepping and the loader may write memory (70_reset_and_hazards.md R170,
  R171). DEDUCED, safe but for a claim about the status then: R18 names no value for this time (log 16). -/
  | notStarted
  /-- The core takes steps. -/
  | running
  /-- HLT was executed, or MOD with a zero divisor; terminal. -/
  | halted
  /-- A fatal condition was met; terminal. -/
  | faulted
  deriving DecidableEq, Repr

/-- The fault record (R19): four cells the host may read. -/
structure FaultRecord where
  /-- `fault_code`: 0 for none, else a code of FAULT_CODES. DESIGN CHOICE, safe: the spec gives the cell no width (log 10). -/
  code : Byte
  /-- `fault_pc`: the address of the faulting instruction's opcode byte. -/
  pc : Byte
  /-- `fault_ir`: the opcode byte fetched. -/
  ir : Byte
  /-- `fault_operand`: the offending operand byte for code 2, zero for code 1. -/
  operand : Byte
  deriving DecidableEq, Repr

/-- The record of a machine that has met no fatal condition: all four cells 0 (R19). -/
abbrev FaultRecord.zero : FaultRecord := ⟨0, 0, 0, 0⟩

/-- The two fatal conditions a program can cause, with what they report besides PC and opcode (60_exceptions.md R150, R151). -/
inductive FatalCondition where
  | unsupportedInstruction
  | invalidRegisterIndex (operand : Byte)
  deriving DecidableEq, Repr

/-- The kind of an output record (R22). -/
inductive OutKind where
  /-- DEC: a register value shown in decimal (PRN). -/
  | dec
  /-- CHR: a register value shown as a character (PRA). -/
  | chr
  deriving DecidableEq, Repr

/-- One record of the output trace (R22). -/
structure OutRecord where
  kind : OutKind
  value : Byte
  deriving DecidableEq, Repr

/-- Memory (R21): the cells that are not 0x00, by strictly rising address below 256; every other cell reads 0x00 (R26).
Its operations and the predicate `Memory.wf` that says this form holds are in Machine/Ops.lean (log 22). -/
abbrev Memory := List Host.Cell

/-- The state of the machine: all that 10_state.md names, and nothing else. -/
structure State where
  /-- The eight registers (R10); index 7 is the stack pointer, which has no other storage (R11). -/
  x : Vector Byte 8
  /-- The program counter (R13): the address of the opcode byte of the next instruction, or of the one executing. -/
  pc : Byte
  /-- The flags register FL (R16): bit 0 E, bit 1 G, bit 2 L, the other bits 0. -/
  fl : Byte
  /-- The 256 memory cells (R21). -/
  mem : Memory
  /-- The run state (R18). -/
  run : RunState
  /-- The fault record (R19). -/
  fault : FaultRecord
  /-- The latched opcode byte (R20). -/
  ir : Byte
  /-- The latched first operand byte (R20). -/
  opa : Byte
  /-- The latched second operand byte (R20). -/
  opb : Byte
  /-- The output trace, oldest record first (R22). -/
  out : List OutRecord
  deriving DecidableEq, Repr

/-- Why `step` answers no next state. Raised by `step` alone, never by an instruction: a machine that is not RUNNING takes no step
(R18, R76, R77). DESIGN CHOICE, safe: the model stops where the machine does nothing of its own (log 21). -/
inductive Fault where
  /-- The run is not started (70_reset_and_hazards.md R170). Raised by `step`. Safe. -/
  | notStarted
  /-- The machine is HALTED: the run ended normally (R176). Raised by `step`. Safe. -/
  | halted
  /-- The machine is FAULTED: the run ended in a fatal condition, which the record names (R157). Raised by `step`. Safe. -/
  | fatal (record : FaultRecord)
  deriving DecidableEq, Repr

/-- Why an instruction has no meaning. -/
inductive Refusal where
  /-- No meaning yet. Raised by `exec` alone; no instruction of this model is left to it. Safe. -/
  | notModelled (mnemonic : String)
  deriving DecidableEq, Repr

/-- What executing an instruction answers. -/
abbrev Result := Host.Outcome State Fault Refusal

/-- The machine right after reset (R24 to R28, R170): x[0..6] = 0, x[7] = 0xF4, PC = 0, FL = 0, every cell 0, not yet stepping, no
fault recorded, latches 0, no output. FL is D2 (log 2), the run state is D16 (log 16), the latches are D17 (log 17): DESIGN CHOICE
of the spec each, unsafe where a claim rests on it. -/
def State.reset : State where
  x := #v[Config.regReset, Config.regReset, Config.regReset, Config.regReset,
    Config.regReset, Config.regReset, Config.regReset, Config.spReset]
  pc := Config.pcReset
  fl := Config.flReset
  mem := []
  run := .notStarted
  fault := .zero
  ir := 0
  opa := 0
  opb := 0
  out := []

end Sys2Proof.Machine
end

