-- ==== Sys2Proof/Machine/Flags.lean ====
section
/-! DEFINITION. The flags of FL (10_state.md R16), the compare that writes them (41_alu.md R99) and the six jump predicates
that read them (42_jumps.md R117). -/

namespace Sys2Proof.Machine

/-- E, bit 0 of FL: equal. -/
def flagE (fl : Byte) : Bool := fl.getLsbD 0

/-- G, bit 1 of FL: greater. -/
def flagG (fl : Byte) : Bool := fl.getLsbD 1

/-- L, bit 2 of FL: less. -/
def flagL (fl : Byte) : Bool := fl.getLsbD 2

/-- `fl <- 4*L + 2*G + E` for an unsigned comparison of two values (R99). Bits 7:3 become 0: DESIGN CHOICE of the spec (D14),
safe, since nothing reads them (log 14). -/
def compareFlags (x y : Byte) : Byte :=
  let e : Nat := if x.toNat = y.toNat then 1 else 0
  let g : Nat := if x.toNat > y.toNat then 1 else 0
  let l : Nat := if x.toNat < y.toNat then 1 else 0
  BitVec.ofNat 8 (4 * l + 2 * g + e)

/-- JEQ is taken when E is set. -/
def takenJeq (fl : Byte) : Bool := flagE fl

/-- JNE is taken when E is clear. -/
def takenJne (fl : Byte) : Bool := !flagE fl

/-- JGT is taken when G is set. -/
def takenJgt (fl : Byte) : Bool := flagG fl

/-- JLT is taken when L is set. -/
def takenJlt (fl : Byte) : Bool := flagL fl

/-- JGE is taken when G or E is set: a true disjunction of two bit tests (R117, C3; log 25). -/
def takenJge (fl : Byte) : Bool := flagG fl || flagE fl

/-- JLE is taken when L or E is set: a true disjunction of two bit tests (R117, C3; log 25). -/
def takenJle (fl : Byte) : Bool := flagL fl || flagE fl

end Sys2Proof.Machine
end

