-- ==== Sys2Proof/Machine/Ops.lean ====
section
/-! DEFINITION. The named operations over memory, registers, PC, FL, output and run state (00_scope.md R6), and taking a fatal
condition (60_exceptions.md R154). There is no return from one (R157): only reset leaves FAULTED. -/

namespace Sys2Proof.Machine

/-- The form every memory has: from address `lo` on, strictly rising addresses below 256, no cell listed that reads 0x00. -/
def Memory.wfFrom (lo : Nat) : Memory → Bool
  | [] => true
  | (k, v) :: m => decide (lo ≤ k) && decide (k < Config.memSize) && decide (v ≠ Config.memReset) && Memory.wfFrom (k + 1) m

/-- The canonical form of memory: equal contents are equal lists (log 22). -/
def Memory.wf (m : Memory) : Bool := Memory.wfFrom 0 m

/-- The content of the cell at a listed or unlisted index. -/
def Memory.get : Memory → Nat → Byte
  | [], _ => Config.memReset
  | (k', v) :: m, k => if k = k' then v else Memory.get m k

/-- Setting the cell at an index, keeping the canonical form. -/
def Memory.put : Memory → Nat → Byte → Memory
  | [], k, v => if v = Config.memReset then [] else [(k, v)]
  | (k', v') :: m, k, v =>
    if k < k' then (if v = Config.memReset then (k', v') :: m else (k, v) :: (k', v') :: m)
    else if k = k' then (if v = Config.memReset then m else (k, v) :: m)
    else (k', v') :: Memory.put m k v

/-- `MemRead(addr, 1)` (20_memory.md R33): cell `addr mod 256`, no side effect, never fails. -/
def Memory.read (m : Memory) (addr : Nat) : Byte := m.get (addr % Config.memSize)

/-- `MemWrite(addr, 1, v)` (R34): cell `addr mod 256` takes `v`, no other cell changes, never fails. -/
def Memory.write (m : Memory) (addr : Nat) (v : Byte) : Memory := m.put (addr % Config.memSize) v

namespace State

/-- `x[r]` (R6, R10). -/
def reg (s : State) (r : Reg) : Byte := s.x[r]

/-- `x[r] <- v` (R6). No register is hard-wired, and index 7 is written like any other (R10, R11). -/
def setReg (s : State) (r : Reg) (v : Byte) : State := { s with x := s.x.set r v }

/-- `x[7]`, the stack pointer (R11). -/
def sp (s : State) : Byte := s.reg Config.spIndex

/-- `x[7] <- v`. -/
def setSp (s : State) (v : Byte) : State := s.setReg Config.spIndex v

/-- `MemRead` on the machine's memory (R33). -/
def readByte (s : State) (addr : Nat) : Byte := s.mem.read addr

/-- `MemWrite` on the machine's memory (R34). -/
def writeByte (s : State) (addr : Nat) (v : Byte) : State := { s with mem := s.mem.write addr v }

/-- `pc <- target` (R6). -/
def setPc (s : State) (target : Byte) : State := { s with pc := target }

/-- `advance()` of an instruction with so many operand bytes (40_instruction_cycle.md R75): PC moves past opcode and operands,
modulo 256 (R13). The count is the format's, which is `ir[7:6]` of the latched opcode (R53); memory is not read again
(70_reset_and_hazards.md R181, D17; log 17). -/
def advance (s : State) (operands : Nat) : State := s.setPc (s.pc + 1 + BitVec.ofNat 8 operands)

/-- `fl <- v` (R6): the whole register. -/
def setFl (s : State) (v : Byte) : State := { s with fl := v }

/-- `Out(kind, v)` (R6, R22): one record is appended. -/
def emit (s : State) (kind : OutKind) (v : Byte) : State := { s with out := s.out ++ [⟨kind, v⟩] }

/-- `halt()` (R6, R18); the current instruction still completes. -/
def halt (s : State) : State := { s with run := .halted }

/-- Fetch (R70): the latches take the bytes at PC, PC + 1 and PC + 2, addresses modulo 256 (R36); PC does not change. -/
def fetch (s : State) : State :=
  { s with
    ir := s.readByte s.pc.toNat
    opa := s.readByte (s.pc.toNat + 1)
    opb := s.readByte (s.pc.toNat + 2) }

end State

/-- `fault_code` of a fatal condition (R150, R151). -/
def FatalCondition.code : FatalCondition → Byte
  | .unsupportedInstruction => Config.codeUnsupportedInstruction
  | .invalidRegisterIndex _ => Config.codeInvalidRegisterIndex

/-- `fault_operand` of a fatal condition (R19). -/
def FatalCondition.operand : FatalCondition → Byte
  | .unsupportedInstruction => 0
  | .invalidRegisterIndex w => w

/-- `raise F(info)` (60_exceptions.md R154): the record is written and the run state becomes FAULTED; no register, flag,
memory cell or output record changes and PC stays at the instruction's opcode byte. DESIGN CHOICE of the spec (D5), unsafe for
a claim about the final state of a faulted run (log 5). -/
def State.raise (s : State) (f : FatalCondition) : State :=
  { s with run := .faulted, fault := ⟨f.code, s.pc, s.ir, f.operand⟩ }

end Sys2Proof.Machine
end

