-- ==== Sys2Proof/Machine/Operands.lean ====
section
/-! DEFINITION. The operand forms: the register-index check of 40_instruction_cycle.md R72, made before any effect, for the
formats with one register operand (R, RI) and with two (RR). Format Z and the immediate of RI check nothing (R59). -/

namespace Sys2Proof.Machine

/-- The register an operand byte names: the byte as it stands, if it is in 0..7 (30_encoding.md R59, R60). -/
def asReg (w : Byte) : Option Reg := if h : w.toNat < 8 then some ⟨w.toNat, h⟩ else none

/-- Formats R and RI: with the register of opa, or InvalidRegisterIndex(opa) and no effect (R72). DESIGN CHOICE of the spec (D4),
safe (log 4). -/
def withReg (a : Byte) (s : State) (effect : Reg → State) : Result :=
  match asReg a with
  | none => .next (s.raise (.invalidRegisterIndex a))
  | some ra => .next (effect ra)

/-- Format RR: opa is checked first, then opb (R72, R155). -/
def withRegs (a b : Byte) (s : State) (effect : Reg → Reg → State) : Result :=
  match asReg a, asReg b with
  | none, _ => .next (s.raise (.invalidRegisterIndex a))
  | some _, none => .next (s.raise (.invalidRegisterIndex b))
  | some ra, some rb => .next (effect ra rb)

end Sys2Proof.Machine
end

