-- ==== Sys2Proof/Machine/Alu.lean ====
section
/-! DEFINITION. The ten ALU instructions (41_alu.md). Both sources are read before the destination is written (R100); all
values are unsigned and results are reduced modulo 256 with nothing recording an overflow (R101). -/

namespace Sys2Proof.Machine

/-- `(x + y) mod 256` (R90). -/
def aluAdd (x y : Byte) : Byte := BitVec.ofNat 8 (x.toNat + y.toNat)

/-- `(x * y) mod 256` (R91). -/
def aluMul (x y : Byte) : Byte := BitVec.ofNat 8 (x.toNat * y.toNat)

/-- `x mod y` for a divisor that is not zero (R92). -/
def aluMod (x y : Byte) : Byte := BitVec.ofNat 8 (x.toNat % y.toNat)

/-- `x & y` (R93). -/
def aluAnd (x y : Byte) : Byte := x &&& y

/-- `x | y` (R94). -/
def aluOr (x y : Byte) : Byte := x ||| y

/-- `x ^ y` (R95). -/
def aluXor (x y : Byte) : Byte := x ^^^ y

/-- `255 - x`, the bitwise complement (R96). -/
def aluNot (x : Byte) : Byte := ~~~x

/-- `(x * 2^y) mod 256` (R97): the amount is the whole byte, not masked to three bits (D13; log 13). -/
def aluShl (x y : Byte) : Byte := BitVec.ofNat 8 (x.toNat * 2 ^ y.toNat)

/-- `floor(x / 2^y)` (R98): zeros enter at the left, and the amount is the whole byte (D13; log 13). -/
def aluShr (x y : Byte) : Byte := BitVec.ofNat 8 (x.toNat / 2 ^ y.toNat)

/-- A two-register ALU operation that writes its first register, then PC + 3. -/
def aluWrite (f : Byte → Byte → Byte) (a b : Byte) (s : State) : Result :=
  withRegs a b s fun ra rb => (s.setReg ra (f (s.reg ra) (s.reg rb))).advance 2

/-- ADD (R90). -/
def execAdd (a b : Byte) (s : State) : Result := aluWrite aluAdd a b s

/-- MUL (R91). -/
def execMul (a b : Byte) (s : State) : Result := aluWrite aluMul a b s

/-- MOD (R92): a zero divisor halts the machine silently and writes nothing else (D8; log 8); PC moves on either way (D7; log 7). -/
def execMod (a b : Byte) (s : State) : Result :=
  withRegs a b s fun ra rb =>
    if s.reg rb = 0 then s.halt.advance 2 else (s.setReg ra (aluMod (s.reg ra) (s.reg rb))).advance 2

/-- AND (R93). -/
def execAnd (a b : Byte) (s : State) : Result := aluWrite aluAnd a b s

/-- OR (R94). -/
def execOr (a b : Byte) (s : State) : Result := aluWrite aluOr a b s

/-- XOR (R95). -/
def execXor (a b : Byte) (s : State) : Result := aluWrite aluXor a b s

/-- NOT (R96): one operand, in place. -/
def execNot (a : Byte) (s : State) : Result :=
  withReg a s fun ra => (s.setReg ra (aluNot (s.reg ra))).advance 1

/-- SHL (R97). -/
def execShl (a b : Byte) (s : State) : Result := aluWrite aluShl a b s

/-- SHR (R98). -/
def execShr (a b : Byte) (s : State) : Result := aluWrite aluShr a b s

/-- CMP (R99): writes FL and no register. -/
def execCmp (a b : Byte) (s : State) : Result :=
  withRegs a b s fun ra rb => (s.setFl (compareFlags (s.reg ra) (s.reg rb))).advance 2

end Sys2Proof.Machine
end

