-- ==== Sys2Proof/Machine/DataMovement.lean ====
section
/-! DEFINITION. The data movement and environment instructions (44_data_movement.md). None writes FL; all are advanced by the
cycle. -/

namespace Sys2Proof.Machine

/-- LDI (R140): the immediate as it stands, any byte; it is not checked (30_encoding.md R60). -/
def execLdi (a imm8 : Byte) (s : State) : Result :=
  withReg a s fun ra => (s.setReg ra imm8).advance 2

/-- PRN (R141): one DEC record. -/
def execPrn (a : Byte) (s : State) : Result :=
  withReg a s fun ra => (s.emit .dec (s.reg ra)).advance 1

/-- PRA (R142): one CHR record. -/
def execPra (a : Byte) (s : State) : Result :=
  withReg a s fun ra => (s.emit .chr (s.reg ra)).advance 1

/-- ST (R143): the cell whose address is `x[a]` takes `x[b]`. -/
def execSt (a b : Byte) (s : State) : Result :=
  withRegs a b s fun ra rb => (s.writeByte (s.reg ra).toNat (s.reg rb)).advance 2

/-- HLT (R144): the run state becomes HALTED; PC is advanced like any instruction's (D7; log 7). -/
def execHlt (s : State) : Result := .next (s.halt.advance 0)

end Sys2Proof.Machine
end

