-- ==== Sys2Proof/Machine/Jumps.lean ====
section
/-! DEFINITION. The jumps (42_jumps.md). Each writes PC itself, taken or not (40_instruction_cycle.md R74); the target is the
whole register, any address (R118); the register index is checked whether or not the jump is taken (R59, D23; log 4). -/

namespace Sys2Proof.Machine

/-- A jump through register `a` when `taken`, else past its own two bytes, modulo 256 (R119). -/
def jumpWhen (taken : Bool) (a : Byte) (s : State) : Result :=
  withReg a s fun ra => if taken then s.setPc (s.reg ra) else s.setPc (s.pc + 2)

/-- JMP (R110). -/
def execJmp (a : Byte) (s : State) : Result := jumpWhen true a s

/-- JEQ (R111). -/
def execJeq (a : Byte) (s : State) : Result := jumpWhen (takenJeq s.fl) a s

/-- JNE (R112). -/
def execJne (a : Byte) (s : State) : Result := jumpWhen (takenJne s.fl) a s

/-- JGT (R113). -/
def execJgt (a : Byte) (s : State) : Result := jumpWhen (takenJgt s.fl) a s

/-- JLT (R114). -/
def execJlt (a : Byte) (s : State) : Result := jumpWhen (takenJlt s.fl) a s

/-- JGE (R115). -/
def execJge (a : Byte) (s : State) : Result := jumpWhen (takenJge s.fl) a s

/-- JLE (R116). -/
def execJle (a : Byte) (s : State) : Result := jumpWhen (takenJle s.fl) a s

end Sys2Proof.Machine
end

