-- ==== Sys2Proof/Machine/StackCall.lean ====
section
/-! DEFINITION. The stack and subroutine instructions (43_stack_call.md). The stack is full-descending through x[7], one byte
an item, all arithmetic modulo 256 and no bound checked (R134, 20_memory.md R37, D6; log 6). The effects of each instruction
happen in the order of its pseudocode, which register 7 as the operand makes visible (D12; log 12). -/

namespace Sys2Proof.Machine

/-- `x[7] <- (x[7] - 1) mod 256`. -/
def State.decSp (s : State) : State := s.setSp (s.sp - 1)

/-- `x[7] <- (x[7] + 1) mod 256`. -/
def State.incSp (s : State) : State := s.setSp (s.sp + 1)

/-- The byte on top of the stack: `MemRead(x[7], 1)`. -/
def State.top (s : State) : Byte := s.readByte s.sp.toNat

/-- `MemWrite(x[7], 1, v)`. -/
def State.setTop (s : State) (v : Byte) : State := s.writeByte s.sp.toNat v

/-- PUSH (R130): the stack pointer is decremented, then `x[a]` is read and written at the new address, so that `PUSH R7` stores
the decremented stack pointer. -/
def execPush (a : Byte) (s : State) : Result :=
  withReg a s fun ra => (s.decSp.setTop (s.decSp.reg ra)).advance 1

/-- POP (R131): the top byte is written to `x[a]`, then the stack pointer is incremented, so that `POP R7` leaves that byte plus one. -/
def execPop (a : Byte) (s : State) : Result :=
  withReg a s fun ra => (s.setReg ra s.top).incSp.advance 1

/-- CALL (R132): one push of the address after the CALL (C4; log 25), then PC takes `x[a]`, read after the decrement. -/
def execCall (a : Byte) (s : State) : Result :=
  withReg a s fun ra => (s.decSp.setTop (s.pc + 2)).setPc (s.decSp.reg ra)

/-- RET (R133): the top byte goes to PC, then the stack pointer is incremented. -/
def execRet (s : State) : Result := .next (s.setPc s.top).incSp

end Sys2Proof.Machine
end

