-- ==== Sys2Proof/Machine/Dispatch.lean ====
section
/-! DEFINITION. One arm per instruction: `exec` is the register-index check, the effect and the PC advance of the instruction
(40_instruction_cycle.md R72, R73, R75). -/

namespace Sys2Proof.Machine

def exec (i : Instr) (s : State) : Host.Outcome State Fault Refusal :=
  match i with
  | .hlt => Sys2Proof.Machine.execHlt s
  | .ret => Sys2Proof.Machine.execRet s
  | .push a => Sys2Proof.Machine.execPush a s
  | .pop a => Sys2Proof.Machine.execPop a s
  | .prn a => Sys2Proof.Machine.execPrn a s
  | .pra a => Sys2Proof.Machine.execPra a s
  | .call a => Sys2Proof.Machine.execCall a s
  | .jmp a => Sys2Proof.Machine.execJmp a s
  | .jeq a => Sys2Proof.Machine.execJeq a s
  | .jne a => Sys2Proof.Machine.execJne a s
  | .jgt a => Sys2Proof.Machine.execJgt a s
  | .jlt a => Sys2Proof.Machine.execJlt a s
  | .jle a => Sys2Proof.Machine.execJle a s
  | .jge a => Sys2Proof.Machine.execJge a s
  | .not a => Sys2Proof.Machine.execNot a s
  | .ldi a imm8 => Sys2Proof.Machine.execLdi a imm8 s
  | .st a b => Sys2Proof.Machine.execSt a b s
  | .add a b => Sys2Proof.Machine.execAdd a b s
  | .mul a b => Sys2Proof.Machine.execMul a b s
  | .mod a b => Sys2Proof.Machine.execMod a b s
  | .cmp a b => Sys2Proof.Machine.execCmp a b s
  | .and a b => Sys2Proof.Machine.execAnd a b s
  | .or a b => Sys2Proof.Machine.execOr a b s
  | .xor a b => Sys2Proof.Machine.execXor a b s
  | .shl a b => Sys2Proof.Machine.execShl a b s
  | .shr a b => Sys2Proof.Machine.execShr a b s

end Sys2Proof.Machine
end

