-- ==== Sys2Proof/Machine/Fetch.lean ====
section
/-! DEFINITION. What `step` does around `exec` (40_instruction_cycle.md R76): what a machine that is not RUNNING answers, the decoding of
the latched bytes, and what an opcode byte outside the table does. -/

namespace Sys2Proof.Machine

/-- A machine that is not RUNNING takes no step (R76, R77): the stop it answers. DESIGN CHOICE, safe (log 21). -/
def State.stopped (s : State) : Option Result :=
  match s.run with
  | .running => none
  | .notStarted => some (.fault .notStarted)
  | .halted => some (.fault .halted)
  | .faulted => some (.fault (.fatal s.fault))

/-- The instruction the latched bytes decode to (R71). -/
def State.latched (s : State) : Except DecodeError Instr := decode s.ir s.opa s.opb

/-- An opcode byte outside the table raises UnsupportedInstruction (R71, R150). -/
def rejected (s : State) (_ : DecodeError) : Result := .next (s.raise .unsupportedInstruction)

/-- Storing a byte list at rising addresses from `addr` on, modulo 256. -/
def State.storeBytes (s : State) (addr : Nat) : List Byte → State
  | [] => s
  | v :: vs => (s.writeByte addr v).storeBytes (addr + 1) vs

end Sys2Proof.Machine
end

