-- ==== Sys2Proof/Machine/Launch.lean ====
section
/-! DEFINITION. The block's interfaces to the outside (70_reset_and_hazards.md R172) other than the step: what the host may do and
when, loading and starting a program, the status, and the inspection of a machine that does not run. `out` is the field of that
name. -/

namespace Sys2Proof.Machine

/-- `load(addr, byte)` (R172): the loader's port writes one memory cell and nothing else, only between reset and start (20_memory.md
R45). None at any other time: the host has no such move then (R175, D20; log 19). -/
def State.load (s : State) (addr : Nat) (v : Byte) : Option State :=
  match s.run with
  | .notStarted => some (s.writeByte addr v)
  | .running | .halted | .faulted => none

/-- `start` (R172): `run <- RUNNING`, once, after loading (R171). None at any other time: there is no resume and no start with a
stopped machine's state (D16; log 16). -/
def State.start (s : State) : Option State :=
  match s.run with
  | .notStarted => some { s with run := .running }
  | .running | .halted | .faulted => none

/-- The inputs of the block (R172). -/
inductive HostMove where
  | reset
  | load (addr : Nat) (v : Byte)
  | start
  deriving DecidableEq, Repr

/-- What the host may do to the machine, and when (R172, R175): reset at any time (R170), the others between reset and start. -/
def State.host (s : State) : HostMove → Option State
  | .reset => some State.reset
  | .load addr v => s.load addr v
  | .start => s.start

/-- The loader's writes: the image at rising addresses from `addr` on, in order (R45, R171). -/
def State.loadImage (s : State) (addr : Nat) : List Byte → Option State
  | [] => some s
  | v :: vs => (s.load addr v).bind fun t => t.loadImage (addr + 1) vs

/-- Reset, load from address 0, start (R171): the launch state of an image (R173). None for an image of more than 256 bytes, which is
outside the core's contract (log 16). -/
def launch (image : List Byte) : Option State :=
  if image.length ≤ Config.memSize then (State.reset.loadImage 0 image).bind State.start else none

/-- The fault record as the host reads it: zeros while the machine is not FAULTED (10_state.md R19). -/
def State.readFaultRecord (s : State) : FaultRecord :=
  match s.run with
  | .notStarted | .running | .halted => .zero
  | .faulted => s.fault

/-- `status` (R172): the run state and the fault record, at any time. -/
def State.status (s : State) : RunState × FaultRecord := (s.run, s.readFaultRecord)

/-- What `inspect` shows (R172): registers, PC, FL and the 256 memory cells. -/
structure Inspection where
  registers : Vector Byte 8
  pc : Byte
  fl : Byte
  memory : List Byte
  deriving DecidableEq, Repr

/-- `inspect` (R172): registers, PC, FL and memory when the machine is not RUNNING; nothing while it is. -/
def State.inspect (s : State) : Option Inspection :=
  match s.run with
  | .running => none
  | .notStarted | .halted | .faulted => some ⟨s.x, s.pc, s.fl, (List.range Config.memSize).map s.readByte⟩

end Sys2Proof.Machine
end

