-- ==== Sys2Proof/Machine/Step.lean ====
section
/-! DEFINITION. One step of the core (40_instruction_cycle.md R76): fetch, decode, execute with the register-index check before
and the PC advance after. And how the host places the next instruction. -/

namespace Sys2Proof.Machine

/-- One step (R76). A machine that is not RUNNING answers the stop of its run state and does not fetch (R77). -/
def step (s : State) : Host.Outcome State Fault Refusal :=
  match s.stopped with
  | some stop => stop
  | none =>
    match s.fetch.latched with
    | .ok i => exec i s.fetch
    | .error e => rejected s.fetch e

/-- `s` with the instruction of a table word stored where the next fetch reads: three bytes at PC, PC + 1, PC + 2, modulo 256,
those beyond the word 0. A machine whose run is not started is started; a stopped machine stays stopped (R170; log 24). Nothing
else changes. -/
def State.withFetchWord (s : State) (nbits w : Nat) : State :=
  let placed := s.storeBytes s.pc.toNat [tableByte nbits w 0, tableByte nbits w 1, tableByte nbits w 2]
  placed.start.getD placed

end Sys2Proof.Machine
end

