-- ==== Sys2Proof/Assembly.lean ====
section
/-! DEFINITION. How an instruction is written (30_encoding.md R61): mnemonic, space, operands separated by a comma, registers as
R and their index, the immediate as a decimal numeral. No assembler is part of the machine. -/

namespace Sys2Proof

/-- The mnemonic as written. -/
def Mnemonic.text : Mnemonic → String
  | .hlt => "HLT"
  | .ret => "RET"
  | .push => "PUSH"
  | .pop => "POP"
  | .prn => "PRN"
  | .pra => "PRA"
  | .call => "CALL"
  | .jmp => "JMP"
  | .jeq => "JEQ"
  | .jne => "JNE"
  | .jgt => "JGT"
  | .jlt => "JLT"
  | .jle => "JLE"
  | .jge => "JGE"
  | .not => "NOT"
  | .ldi => "LDI"
  | .st => "ST"
  | .add => "ADD"
  | .mul => "MUL"
  | .mod => "MOD"
  | .cmp => "CMP"
  | .and => "AND"
  | .or => "OR"
  | .xor => "XOR"
  | .shl => "SHL"
  | .shr => "SHR"

/-- The operands as written, in the order of the operand bytes: opa, then opb. -/
def Instr.operandTexts (i : Instr) : List String :=
  i.regOperands.map (fun w => "R" ++ toString w.toNat) ++
  (i.operandBytes.drop i.regOperands.length).map (fun w => toString w.toNat)

/-- The instruction as written. -/
def Instr.text (i : Instr) : String :=
  match i.operandTexts with
  | [] => i.mnemonic.text
  | operands => i.mnemonic.text ++ " " ++ String.intercalate "," operands

/-- A sequence as written: instructions separated by a semicolon. -/
def programText (is : List Instr) : String := String.intercalate "; " (is.map Instr.text)

end Sys2Proof
end

