-- ==== Sys2Proof/Machine/Output.lean ====
section
/-! DEFINITION. How a consumer shows the output trace as text (44_data_movement.md R145), as Unicode code points; how they
become bytes is the consumer's affair. -/

namespace Sys2Proof.Machine

/-- The code points of the decimal numeral of a byte: 1 to 3 digits, no sign, no leading zero, no padding. -/
def decimalDigits (v : Byte) : List Nat :=
  let n := v.toNat
  if n < 10 then [48 + n]
  else if n < 100 then [48 + n / 10, 48 + n % 10]
  else [48 + n / 100, 48 + n / 10 % 10, 48 + n % 10]

/-- A record as text: DEC is the numeral and one line terminator, CHR the one character of that code point. DESIGN CHOICE of the
spec for the terminator and the values above 127 (D9), unsafe for claims about text (log 9). -/
def OutRecord.render (r : OutRecord) : List Nat :=
  match r.kind with
  | .dec => decimalDigits r.value ++ [Config.lineTerminator]
  | .chr => [r.value.toNat]

/-- The trace as text: its records in order, nothing between them. -/
def renderTrace (trace : List OutRecord) : List Nat := trace.flatMap OutRecord.render

end Sys2Proof.Machine
end

