-- ==== Sys2Proof/Safety.lean ====
section
/-! DEFINITION. The terms claims are stated in: the invariant of the machine, what two states have in common, what an instruction
may write (the tables of 10_state.md R12 and 20_memory.md R32), and how a run can end (60_exceptions.md R159). -/

namespace Sys2Proof.Machine

/-- The four values FL can reach (10_state.md R17): none, E, G or L set. -/
def flagsLegal (fl : Byte) : Prop := fl = 0x00 ∨ fl = 0x01 ∨ fl = 0x02 ∨ fl = 0x04

/-- The fault record says what the state shows (R19): all zero unless FAULTED; when FAULTED, the PC and the opcode byte of the
faulting instruction, and the offending byte exactly when the code is InvalidRegisterIndex. -/
def recordLegal (s : State) : Prop :=
  (s.run ≠ .faulted → s.fault = .zero) ∧
  (s.run = .faulted → s.fault.pc = s.pc ∧ s.fault.ir = s.ir ∧
    ((s.fault.code = 1 ∧ s.fault.operand = 0) ∨ (s.fault.code = 2 ∧ 7 < s.fault.operand.toNat)))

/-- Before the run starts everything but memory is at its reset value: the loader writes memory only (70_reset_and_hazards.md R171,
R175). -/
def resetUnlessStarted (s : State) : Prop := s.run = .notStarted → s = { State.reset with mem := s.mem }

/-- The invariant of the machine: memory keeps its canonical form, FL a reachable value, the fault record agrees with the run state,
and before the run starts only memory differs from reset. -/
def State.Inv (s : State) : Prop := s.mem.wf = true ∧ flagsLegal s.fl ∧ recordLegal s ∧ resetUnlessStarted s

/-- Every register except those listed holds the same value in both states. -/
def SameRegsExcept (ws : List Reg) (s t : State) : Prop := ∀ r : Reg, r ∉ ws → t.reg r = s.reg r

/-- Every register holds the same value in both states. -/
def SameRegs (s t : State) : Prop := ∀ r : Reg, t.reg r = s.reg r

/-- Every byte of memory reads the same in both states. -/
def SameMemory (s t : State) : Prop := ∀ a : Nat, t.readByte a = s.readByte a

/-- Every byte of memory outside the one cell reads the same in both states. -/
def SameMemoryExcept (cell : Byte) (s t : State) : Prop := ∀ a : Nat, a % 256 ≠ cell.toNat → t.readByte a = s.readByte a

/-- The run state and the fault record are the same. -/
def SameRun (s t : State) : Prop := t.run = s.run ∧ t.fault = s.fault

/-- The three fetch latches are the same. -/
def SameLatches (s t : State) : Prop := t.ir = s.ir ∧ t.opa = s.opa ∧ t.opb = s.opb

/-- `t` is `s` after an instruction that writes at most the registers `ws` and PC: flags, memory, run state, fault record, latches
and output are as before. -/
def OnlyRegsWritten (ws : List Reg) (s t : State) : Prop :=
  SameRegsExcept ws s t ∧ t.fl = s.fl ∧ SameMemory s t ∧ SameRun s t ∧ SameLatches s t ∧ t.out = s.out

/-- `t` is `s` after an instruction that writes at most the registers `ws`, PC and the one memory cell. -/
def OnlyRegsAndCellWritten (ws : List Reg) (cell : Byte) (s t : State) : Prop :=
  SameRegsExcept ws s t ∧ t.fl = s.fl ∧ SameMemoryExcept cell s t ∧ SameRun s t ∧ SameLatches s t ∧ t.out = s.out

/-- `t` is `s` after taking a fatal condition: PC, registers, FL, memory, latches and output as before (60_exceptions.md R154), and
FAULTED with the record given. -/
def FaultTaken (record : FaultRecord) (s t : State) : Prop :=
  t.run = .faulted ∧ t.fault = record ∧ t.pc = s.pc ∧ SameRegs s t ∧ t.fl = s.fl ∧ SameMemory s t ∧ SameLatches s t ∧
  t.out = s.out

/-- What the fetch of the next step reads as an instruction: the decoding of the bytes at PC, PC + 1 and PC + 2, modulo 256. -/
def State.nextInstr (s : State) : Except DecodeError Instr :=
  decode (s.readByte s.pc.toNat) (s.readByte (s.pc.toNat + 1)) (s.readByte (s.pc.toNat + 2))

/-- The registers an instruction may write: the last column of 10_state.md R12. -/
def regsWritten : Instr → List Reg
  | .hlt | .cmp _ _ | .st _ _ | .prn _ | .pra _ => []
  | .jmp _ | .jeq _ | .jne _ | .jgt _ | .jlt _ | .jle _ | .jge _ => []
  | .ret | .push _ | .call _ => [7]
  | .pop a => 7 :: (asReg a).toList
  | .not a | .ldi a _ => (asReg a).toList
  | .add a _ | .mul a _ | .mod a _ | .and a _ | .or a _ | .xor a _ | .shl a _ | .shr a _ => (asReg a).toList

/-- The one memory cell an instruction writes, if it writes one: the write rows of 20_memory.md R32. -/
def cellWritten (s : State) : Instr → Option Byte
  | .st a _ => (asReg a).map s.reg
  | .push _ | .call _ => some (s.reg 7 - 1)
  | .hlt | .ret | .pop _ | .prn _ | .pra _ | .not _ | .ldi _ _ => none
  | .jmp _ | .jeq _ | .jne _ | .jgt _ | .jlt _ | .jle _ | .jge _ => none
  | .add _ _ | .mul _ _ | .mod _ _ | .cmp _ _ | .and _ _ | .or _ _ | .xor _ _ | .shl _ _ | .shr _ _ => none

/-- `t` is reached from `s` by so many steps. -/
inductive Reaches : State → Nat → State → Prop where
  | here (s : State) : Reaches s 0 s
  | more {s t u : State} {k : Nat} (first : step s = .next t) (rest : Reaches t k u) : Reaches s (k + 1) u

/-- `t` comes from `s` by so many moves of the core and of the host, in any order: steps, and what the host may do when it may. -/
inductive Evolves : State → Nat → State → Prop where
  | here (s : State) : Evolves s 0 s
  | core {s t u : State} {k : Nat} (before : Evolves s k t) (move : step t = .next u) : Evolves s (k + 1) u
  | host {s t u : State} {k : Nat} (m : HostMove) (before : Evolves s k t) (move : t.host m = some u) : Evolves s (k + 1) u

/-- The run from `s` ends normally (70_reset_and_hazards.md R176, R159): by HLT, or by MOD with a zero divisor. -/
def Terminates (s : State) : Prop := ∃ k t, Reaches s k t ∧ t.run = .halted

/-- The run from `s` meets a fatal condition (R159). -/
def Faults (s : State) : Prop := ∃ k t, Reaches s k t ∧ t.run = .faulted

/-- The run from `s` never ends: a hang (R159). -/
def Hangs (s : State) : Prop := ∀ k, ∃ t, Reaches s k t ∧ t.run = .running

/-- A safe run: no fatal condition is ever met. -/
def Safe (s : State) : Prop := ∀ k t, Reaches s k t → t.run ≠ .faulted

end Sys2Proof.Machine
end

