-- ==== Sys2Proof/Certificates/Slice0/Obligations.lean ====
section
/-! DEFINITION. The statements for the provers. `regByte r` is the operand byte of register `r`: the eight of them are all the
register operand bytes in range, so a statement over `Reg` covers every well-formed form; the bytes above 7 have statements of
their own. "log <n>" is notes/assumptions/<n>.md, "D<n>" a decision of spec/92_eei_decisions.md. -/

open Sys2Proof Sys2Proof.Machine

/-- Decoding and encoding agree, both ways and with the bytes that follow (30_encoding.md R50, R51, R55): the bytes that decode to
an instruction are its encoding and nothing else. The opcode numbers are general knowledge (D1, log 1). -/
def Obligations.DecodeInvertsEncode : Prop :=
  ∀ (bs rest : List Byte) (i : Instr), decodeBytes bs = .ok (i, rest) ↔ bs = encode i ++ rest

/-- Words of each family written out from R55's numbers (general knowledge: D1, log 1) decode to their instructions. -/
def Obligations.WrittenWordsDecode : Prop :=
  decode 0b10000010 0b00000000 0b00001000 = .ok (.ldi 0 8) ∧
  decode 0b10100010 0b00000000 0b00000001 = .ok (.mul 0 1) ∧
  decode 0b01101001 0b00000011 0b11111111 = .ok (.not 3) ∧
  decode 0b01011010 0b00000010 0b00000000 = .ok (.jge 2) ∧
  decode 0b01010000 0b00000001 0b00000000 = .ok (.call 1) ∧
  decode 0b00010001 0b00000000 0b00000000 = .ok .ret ∧
  decode 0b10000100 0b00000101 0b00000110 = .ok (.st 5 6) ∧
  decode 0b00000000 0b00000000 0b00000000 = .error (.unsupportedOpcode 0)

/-- R53 and R54: the two high bits of an instruction's opcode are the number of its operand bytes, and bit 4 is set exactly for the
nine instructions that manage PC themselves. -/
def Obligations.OpcodeBitsCountOperandsAndMarkPcWriters : Prop :=
  ∀ i : Instr,
    (opcodeOf i.mnemonic).toNat / 64 = i.operandBytes.length ∧
    ((opcodeOf i.mnemonic).getLsbD 4 = true ↔
      i.mnemonic ∈ [Mnemonic.jmp, .jeq, .jne, .jgt, .jlt, .jge, .jle, .call, .ret])

/-- R56: the whole opcode byte selects the row, no two rows share a byte, and the operand bytes select nothing. -/
def Obligations.OperandBytesNeverSelectInstruction : Prop :=
  (∀ m m' : Mnemonic, opcodeOf m = opcodeOf m' → m = m') ∧
  ∀ ir opa opb : Byte,
    (∀ m, opcodeOf m = ir → decode ir opa opb = .ok (m.instr opa opb)) ∧
    ((∀ m, opcodeOf m ≠ ir) → decode ir opa opb = .error (.unsupportedOpcode ir))

/-- R70's speculative operand bytes: what stands after the instruction's own bytes changes nothing in the decoding. -/
def Obligations.UnusedOperandBytesIgnored : Prop :=
  ∀ ir a b a' b' : Byte,
    (ir.toNat / 64 = 0 → decode ir a b = decode ir a' b') ∧ (ir.toNat / 64 = 1 → decode ir a b = decode ir a b')

/-- R70: a running machine latches the bytes at PC, PC + 1 and PC + 2 (modulo 256) and, when they decode to an instruction, the step
is that instruction executed on the state with the latches written, PC still on its opcode byte. -/
def Obligations.StepRunsDecodedInstruction : Prop :=
  ∀ (s : State) (i : Instr),
    s.run = .running →
    decode (s.readByte s.pc.toNat) (s.readByte ((s.pc.toNat + 1) % 256)) (s.readByte ((s.pc.toNat + 2) % 256)) = .ok i →
    step s = exec i { s with
      ir := s.readByte s.pc.toNat
      opa := s.readByte ((s.pc.toNat + 1) % 256)
      opb := s.readByte ((s.pc.toNat + 2) % 256) }

/-- A step is taken exactly while the machine is RUNNING (R76, R77); that it answers a named stop otherwise is the model's choice
(log 21), and so is the name of the time before the run starts (log 16). -/
def Obligations.StepTakenExactlyWhileRunning : Prop :=
  ∀ s : State,
    (s.run = .running ↔ ∃ t, step s = .next t) ∧
    (s.run = .notStarted → step s = .fault .notStarted) ∧
    (s.run = .halted → step s = .fault .halted) ∧
    (s.run = .faulted → step s = .fault (.fatal s.fault))

/-- A step leaves RUNNING only by HLT, by MOD with a zero divisor, or by a fatal condition, and for nothing but HALTED and FAULTED (R77). The fatal conditions are the spec's
decisions D4 and D5 (logs 4, 5). -/
def Obligations.RunLeavesRunningOnlyByHaltOrFatal : Prop :=
  ∀ s t : State, step s = .next t →
    (t.run = .halted ↔
      s.nextInstr = .ok .hlt ∨
      ∃ a b : Reg, s.nextInstr = .ok (.mod (regByte a) (regByte b)) ∧ s.reg b = 0) ∧
    (t.run = .faulted ↔
      (∃ e, s.nextInstr = .error e) ∨ ∃ i w, s.nextInstr = .ok i ∧ i.badOperand = some w) ∧
    t.run ≠ .notStarted

/-- An opcode byte outside the table takes UnsupportedInstruction and changes nothing else; 0x00 and every byte from 0xC0 on are such
bytes. The state left is the spec's decision D5, the code D10, the numbers D1 and D19 (logs 5, 10, 1, 18). -/
def Obligations.UnsupportedOpcodeFaults : Prop :=
  (∀ s : State, s.run = .running → (∀ m, opcodeOf m ≠ s.readByte s.pc.toNat) →
    ∃ t, step s = .next t ∧ FaultTaken ⟨1, s.pc, s.readByte s.pc.toNat, 0⟩ s.fetch t) ∧
  ∀ w : Byte, w = 0 ∨ 0xC0 ≤ w.toNat → ∀ m, opcodeOf m ≠ w

/-- An instruction whose first register operand byte out of 0..7 is `w` takes InvalidRegisterIndex with `w`, and nothing else of it
happens. The spec's decisions D4, D5, D10, D23 (logs 4, 5, 10). -/
def Obligations.BadRegisterOperandFaults : Prop :=
  ∀ (i : Instr) (s : State) (w : Byte), i.badOperand = some w →
    ∃ t, exec i s = .next t ∧ FaultTaken ⟨2, s.pc, s.ir, w⟩ s t

/-- The order of the checks in every two-register instruction: opa before opb, and both before any effect, so that MOD with a bad
index faults whatever its divisor, and nothing but the run state and the record changes. The spec's decisions D4, D5, D10 (logs 4,
5, 10). -/
def Obligations.OpaIsCheckedBeforeOpb : Prop :=
  ∀ (f : Byte → Byte → Instr) (s : State) (a b : Byte),
    f ∈ [Instr.st, Instr.add, Instr.mul, Instr.mod, Instr.cmp, Instr.and, Instr.or, Instr.xor, Instr.shl, Instr.shr] →
    (7 < a.toNat → ∃ t, exec (f a b) s = .next t ∧ FaultTaken ⟨2, s.pc, s.ir, a⟩ s t) ∧
    (a.toNat ≤ 7 → 7 < b.toNat → ∃ t, exec (f a b) s = .next t ∧ FaultTaken ⟨2, s.pc, s.ir, b⟩ s t)

/-- A step that ends FAULTED changes nothing but the latches of its fetch, the run state and the record, which names PC, the opcode
byte and one of the two codes. The spec's decisions D5 and D10 (logs 5, 10). -/
def Obligations.FatalStepIsPrecise : Prop :=
  ∀ s t : State, step s = .next t → t.run = .faulted →
    FaultTaken t.fault s.fetch t ∧ t.fault.pc = s.pc ∧ t.fault.ir = s.readByte s.pc.toNat ∧
    (t.fault.code = 1 ∧ t.fault.operand = 0 ∨ t.fault.code = 2 ∧ 7 < t.fault.operand.toNat)

/-- The auto-advance: after a step of an instruction whose opcode has bit 4 clear, PC has moved by one plus the two high bits of the
latched opcode byte, also when the step halts and also when it overwrote its own bytes. The spec's decisions D7 and D17 (logs 7,
17). -/
def Obligations.AutoAdvanceUsesLatchedOpcode : Prop :=
  ∀ s t : State, step s = .next t → t.run ≠ .faulted →
    t.ir = s.readByte s.pc.toNat ∧
    (t.ir.getLsbD 4 = false → t.pc.toNat = (s.pc.toNat + 1 + t.ir.toNat / 64) % 256)

/-- R24, R25, R26: the machine launched with an image has its registers and PC at their reset values and memory holding the image from
address 0 on, zeros after it, so that the first opcode byte fetched is the image's first; reset memory reads zero everywhere. -/
def Obligations.LaunchRegistersAndMemory : Prop :=
  (∀ a, State.reset.readByte a = 0) ∧
  ∀ image : List Byte, image.length ≤ 256 →
    ∃ s, launch image = some s ∧
      (∀ r : Reg, s.reg r = if r = 7 then 0xF4 else 0) ∧ s.pc = 0 ∧ s.fetch.ir = image[0]?.getD 0 ∧
      ∀ a, a < 256 → s.readByte a = image[a]?.getD 0

/-- The rest of the launch state, the spec's decisions D2, D10, D16, D17 (logs 2, 10, 16, 17), and that reset itself is not yet
stepping (R170); that an image of more than 256 bytes launches nothing is the model's choice (log 16). -/
def Obligations.LaunchControlState : Prop :=
  State.reset.run = .notStarted ∧ (∀ t, step State.reset ≠ .next t) ∧
  ∀ image : List Byte,
    (256 < image.length → launch image = none) ∧
    ∀ s, launch image = some s →
      s.fl = 0 ∧ s.run = .running ∧ s.fault = .zero ∧ s.ir = 0 ∧ s.opa = 0 ∧ s.opb = 0 ∧ s.out = []

/-- Each input of the block is there at its time only, and does what R172 says (D16, D20; logs 16, 19): reset always, to the one reset
state; load and start exactly while the run is not started, load writing the one cell and start the run state. So nothing but reset
leaves HALTED and FAULTED (R170): no step is taken there, and the host has no other move. -/
def Obligations.HostMovesOnlyAtTheirTime : Prop :=
  ∀ s : State,
    s.host .reset = some State.reset ∧
    (s.run = .notStarted →
      (∀ (addr : Nat) (v : Byte), ∃ t, s.host (.load addr v) = some t ∧
        t = { s with mem := t.mem } ∧
        (s.mem.wf = true → t.readByte addr = v ∧ ∀ a, a % 256 ≠ addr % 256 → t.readByte a = s.readByte a)) ∧
      s.host .start = some { s with run := .running }) ∧
    (s.run ≠ .notStarted → ∀ m t, s.host m = some t → m = .reset) ∧
    (s.run = .halted ∨ s.run = .faulted → ∀ k t, Evolves s k t → t = s ∨ ∃ j, j < k ∧ Evolves State.reset j t)

/-- Whatever the host and the core do, in whatever order, the invariant is kept, so that it holds of every state that comes from
reset. It rests on D5, D10, D14, D16, D20 (logs 5, 10, 14, 16, 19) and on the model's form of memory (log 22). -/
def Obligations.EvolutionsKeepInvariant : Prop :=
  (∀ (s t : State) (k : Nat), s.Inv → Evolves s k t → t.Inv) ∧ ∀ (t : State) (k : Nat), Evolves State.reset k t → t.Inv

/-- The invariant holds after reset. It rests on the reset values of FL and the fault record (D2, D10; logs 2, 10) and on the model's form of memory (log 22). -/
def Obligations.ResetMeetsInvariant : Prop := State.reset.Inv

/-- The invariant holds of every launch state. It rests on D2 and D10 (logs 2, 10) and on the model's form of memory (log 22). -/
def Obligations.LaunchMeetsInvariant : Prop := ∀ (image : List Byte) (s : State), launch image = some s → s.Inv

/-- Every step keeps the invariant: canonical memory, FL one of 0, 1, 2, 4 (R17, R29), a fault record that is zero unless FAULTED and
names the faulting instruction then (R19), and, should the run not be started, all but memory at reset. It rests on D5, D10 and D14 (logs 5, 10, 14) and on the model's form of memory (log 22). -/
def Obligations.StepKeepsInvariant : Prop := ∀ s t : State, s.Inv → step s = .next t → t.Inv

/-- Every run either terminates, or faults, or hangs, and no two of these (60_exceptions.md R159); before it is started it does none of
them. -/
def Obligations.EveryRunTerminatesFaultsOrHangs : Prop :=
  ∀ s : State,
    (s.run ≠ .notStarted ↔ Terminates s ∨ Faults s ∨ Hangs s) ∧ ¬ (Terminates s ∧ Faults s) ∧ ¬ (Terminates s ∧ Hangs s) ∧ ¬ (Faults s ∧ Hangs s)

/-- R90, R91: ADD and MUL keep the low eight bits of the sum and the product in the first register, move PC by 3 and change nothing
else, whichever registers are named, register 7 and twice the same one among them. -/
def Obligations.AddAndMulWrapModulo256 : Prop :=
  ∀ (s : State) (a b : Reg),
    (∃ t, exec (.add (regByte a) (regByte b)) s = .next t ∧
      (t.reg a).toNat = ((s.reg a).toNat + (s.reg b).toNat) % 256 ∧ t.pc = s.pc + 3 ∧ OnlyRegsWritten [a] s t) ∧
    (∃ t, exec (.mul (regByte a) (regByte b)) s = .next t ∧
      (t.reg a).toNat = ((s.reg a).toNat * (s.reg b).toNat) % 256 ∧ t.pc = s.pc + 3 ∧ OnlyRegsWritten [a] s t)

/-- R93 to R96: AND, OR and XOR combine the two registers bit by bit into the first and move PC by 3; NOT replaces its register by 255
minus it and moves PC by 2; nothing else changes. -/
def Obligations.BitwiseResults : Prop :=
  ∀ (s : State) (a b : Reg),
    (∃ t, exec (.and (regByte a) (regByte b)) s = .next t ∧
      (∀ k, (t.reg a).getLsbD k = ((s.reg a).getLsbD k && (s.reg b).getLsbD k)) ∧ t.pc = s.pc + 3 ∧ OnlyRegsWritten [a] s t) ∧
    (∃ t, exec (.or (regByte a) (regByte b)) s = .next t ∧
      (∀ k, (t.reg a).getLsbD k = ((s.reg a).getLsbD k || (s.reg b).getLsbD k)) ∧ t.pc = s.pc + 3 ∧ OnlyRegsWritten [a] s t) ∧
    (∃ t, exec (.xor (regByte a) (regByte b)) s = .next t ∧
      (∀ k, (t.reg a).getLsbD k = ((s.reg a).getLsbD k ^^ (s.reg b).getLsbD k)) ∧ t.pc = s.pc + 3 ∧ OnlyRegsWritten [a] s t) ∧
    (∃ t, exec (.not (regByte a)) s = .next t ∧
      (t.reg a).toNat = 255 - (s.reg a).toNat ∧ t.pc = s.pc + 2 ∧ OnlyRegsWritten [a] s t)

/-- SHL multiplies by the power of two and keeps eight bits, SHR divides by it; the amount is the whole byte of the second register.
That amounts of 8 and more are not masked is the spec's decision D13 (log 13). -/
def Obligations.ShiftsUseWholeAmount : Prop :=
  ∀ (s : State) (a b : Reg),
    (∃ t, exec (.shl (regByte a) (regByte b)) s = .next t ∧
      (t.reg a).toNat = (s.reg a).toNat * 2 ^ (s.reg b).toNat % 256 ∧ t.pc = s.pc + 3 ∧ OnlyRegsWritten [a] s t) ∧
    (∃ t, exec (.shr (regByte a) (regByte b)) s = .next t ∧
      (t.reg a).toNat = (s.reg a).toNat / 2 ^ (s.reg b).toNat ∧ t.pc = s.pc + 3 ∧ OnlyRegsWritten [a] s t)

/-- MOD leaves the remainder; with a zero divisor it halts the machine and changes no register, flag, cell or output; PC moves by 3
either way. The halting case is the spec's decisions D7 and D8 (logs 7, 8). -/
def Obligations.ModRemainderOrSilentHalt : Prop :=
  ∀ (s : State) (a b : Reg),
    (s.reg b ≠ 0 → ∃ t, exec (.mod (regByte a) (regByte b)) s = .next t ∧
      (t.reg a).toNat = (s.reg a).toNat % (s.reg b).toNat ∧ t.pc = s.pc + 3 ∧ OnlyRegsWritten [a] s t) ∧
    (s.reg b = 0 → ∃ t, exec (.mod (regByte a) (regByte b)) s = .next t ∧
      t.run = .halted ∧ t.pc = s.pc + 3 ∧ SameRegs s t ∧ t.fl = s.fl ∧ SameMemory s t ∧ t.fault = s.fault ∧
      SameLatches s t ∧ t.out = s.out)

/-- CMP writes FL with exactly one of E, G, L by unsigned comparison, and no register. That the upper five bits become 0 is the spec's
decision D14 (log 14). -/
def Obligations.CompareSetsExactlyOneFlag : Prop :=
  ∀ (s : State) (a b : Reg),
    ∃ t, exec (.cmp (regByte a) (regByte b)) s = .next t ∧
      ((s.reg a).toNat = (s.reg b).toNat → t.fl = 0x01) ∧
      ((s.reg a).toNat > (s.reg b).toNat → t.fl = 0x02) ∧
      ((s.reg a).toNat < (s.reg b).toNat → t.fl = 0x04) ∧
      t.pc = s.pc + 3 ∧ SameRegs s t ∧ SameMemory s t ∧ SameRun s t ∧ SameLatches s t ∧ t.out = s.out

/-- A step that changes FL is a step of CMP, and no step takes FL out of its reachable values (R17). The upper bits are D14 (log 14). -/
def Obligations.OnlyCompareChangesFlags : Prop :=
  ∀ s t : State, step s = .next t →
    (t.fl ≠ s.fl → ∃ a b : Reg, s.nextInstr = .ok (.cmp (regByte a) (regByte b))) ∧
    (flagsLegal s.fl → flagsLegal t.fl)

/-- R110 to R116: each jump goes to the whole register exactly when its predicate of FL holds, for all values of FL, and else past
its own two bytes; nothing but PC changes. -/
def Obligations.JumpsFollowFlagPredicates : Prop :=
  ∀ (s : State) (a : Reg) (j : Byte → Instr) (taken : Bool),
    (j, taken) ∈
      [(Instr.jmp, true),
       (Instr.jeq, s.fl.getLsbD 0), (Instr.jne, !s.fl.getLsbD 0),
       (Instr.jgt, s.fl.getLsbD 1), (Instr.jlt, s.fl.getLsbD 2),
       (Instr.jge, s.fl.getLsbD 1 || s.fl.getLsbD 0), (Instr.jle, s.fl.getLsbD 2 || s.fl.getLsbD 0)] →
    ∃ t, exec (j (regByte a)) s = .next t ∧
      t.pc.toNat = (if taken = true then (s.reg a).toNat else (s.pc.toNat + 2) % 256) ∧ OnlyRegsWritten [] s t

/-- PUSH decrements x[7] modulo 256 and writes the register at the new address; `PUSH R7` writes the decremented value. No bound is
checked. The spec's decisions D3, D6, D12 (logs 3, 6, 12). -/
def Obligations.PushWritesBelowStackTop : Prop :=
  ∀ (s : State) (a : Reg), s.mem.wf = true →
    ∃ t, exec (.push (regByte a)) s = .next t ∧
      (t.reg 7).toNat = ((s.reg 7).toNat + 255) % 256 ∧
      t.readByte (s.reg 7 - 1).toNat = (if a = 7 then s.reg 7 - 1 else s.reg a) ∧
      t.pc = s.pc + 2 ∧ OnlyRegsAndCellWritten [7] (s.reg 7 - 1) s t

/-- POP reads the byte at x[7] into the register and then increments x[7] modulo 256; `POP R7` leaves that byte plus one. No bound is
checked. The spec's decisions D3, D6, D12 (logs 3, 6, 12). -/
def Obligations.PopReadsStackTop : Prop :=
  ∀ (s : State) (a : Reg),
    ∃ t, exec (.pop (regByte a)) s = .next t ∧
      (a ≠ 7 → t.reg a = s.readByte (s.reg 7).toNat ∧ (t.reg 7).toNat = ((s.reg 7).toNat + 1) % 256) ∧
      (a = 7 → (t.reg 7).toNat = ((s.readByte (s.reg 7).toNat).toNat + 1) % 256) ∧
      t.pc = s.pc + 2 ∧ OnlyRegsWritten [7, a] s t

/-- CALL pushes PC + 2 modulo 256 with one decrement and jumps to the register; `CALL R7` jumps to the decremented x[7]. The spec's
decisions D3, D6, D12 and resolution C4 (logs 3, 6, 12, 25). -/
def Obligations.CallPushesReturnAddress : Prop :=
  ∀ (s : State) (a : Reg), s.mem.wf = true →
    ∃ t, exec (.call (regByte a)) s = .next t ∧
      (t.reg 7).toNat = ((s.reg 7).toNat + 255) % 256 ∧
      (t.readByte (s.reg 7 - 1).toNat).toNat = (s.pc.toNat + 2) % 256 ∧
      t.pc = (if a = 7 then s.reg 7 - 1 else s.reg a) ∧ OnlyRegsAndCellWritten [7] (s.reg 7 - 1) s t

/-- RET takes PC from the byte at x[7], increments x[7] modulo 256 and writes nothing else, also on an empty stack and at the top of
memory: no bound is checked. The spec's decisions D3 and D6 (logs 3, 6). -/
def Obligations.ReturnPopsPc : Prop :=
  ∀ s : State,
    ∃ t, exec .ret s = .next t ∧
      t.pc = s.readByte (s.reg 7).toNat ∧ (t.reg 7).toNat = ((s.reg 7).toNat + 1) % 256 ∧ OnlyRegsWritten [7] s t

/-- PUSH then POP moves a register's value exactly and restores the stack pointer, from every stack pointer (43_stack_call.md R136, the
spec's inference, for registers other than 7); to the same register it is a round trip. -/
def Obligations.PushPopRoundTrip : Prop :=
  ∀ (s : State) (a b : Reg), s.mem.wf = true → a ≠ 7 → b ≠ 7 →
    ∃ t u, exec (.push (regByte a)) s = .next t ∧ exec (.pop (regByte b)) t = .next u ∧
      u.reg b = s.reg a ∧ SameRegsExcept [b] s u ∧ u.pc = s.pc + 4

/-- CALL and, when x[7] and the return address's cell are as CALL left them, RET resume after the CALL with the stack pointer restored
(43_stack_call.md R136, the spec's inference), for every register and every stack pointer. -/
def Obligations.CallReturnRoundTrip : Prop :=
  ∀ (s : State) (a : Reg), s.mem.wf = true →
    ∃ t, exec (.call (regByte a)) s = .next t ∧
      ∀ u : State, u.reg 7 = t.reg 7 → u.readByte (t.reg 7).toNat = t.readByte (t.reg 7).toNat →
        ∃ v, exec .ret u = .next v ∧ v.pc = s.pc + 2 ∧ v.reg 7 = s.reg 7

/-- R140: LDI puts the immediate byte, any value, into any register, moves PC by 3 and changes nothing else. -/
def Obligations.LoadImmediateResult : Prop :=
  ∀ (s : State) (a : Reg) (imm8 : Byte),
    ∃ t, exec (.ldi (regByte a) imm8) s = .next t ∧ t.reg a = imm8 ∧ t.pc = s.pc + 3 ∧ OnlyRegsWritten [a] s t

/-- R141, R142: PRN and PRA append exactly one record of their kind with the register's value, move PC by 2 and change nothing else. -/
def Obligations.OutputInstructionsAppendOneRecord : Prop :=
  ∀ (s : State) (a : Reg) (j : Byte → Instr) (kind : OutKind),
    (j, kind) ∈ [(Instr.prn, OutKind.dec), (Instr.pra, OutKind.chr)] →
    ∃ t, exec (j (regByte a)) s = .next t ∧ t.out = s.out ++ [⟨kind, s.reg a⟩] ∧ t.pc = s.pc + 2 ∧
      SameRegs s t ∧ t.fl = s.fl ∧ SameMemory s t ∧ SameRun s t ∧ SameLatches s t

/-- R143: ST writes the second register's value into the cell whose address is the first register's, moves PC by 3 and changes no
other cell and no register. -/
def Obligations.StoreWritesOneCell : Prop :=
  ∀ (s : State) (a b : Reg), s.mem.wf = true →
    ∃ t, exec (.st (regByte a) (regByte b)) s = .next t ∧
      t.readByte (s.reg a).toNat = s.reg b ∧ t.pc = s.pc + 3 ∧ OnlyRegsAndCellWritten [] (s.reg a) s t

/-- HLT makes the machine HALTED and changes nothing else but PC, which moves by 1 (the spec's decision D7, log 7). -/
def Obligations.HaltStopsTheRun : Prop :=
  ∀ s : State,
    ∃ t, exec .hlt s = .next t ∧ t.run = .halted ∧ (∀ u, step t ≠ .next u) ∧ t.pc = s.pc + 1 ∧
      SameRegs s t ∧ t.fl = s.fl ∧ SameMemory s t ∧ t.fault = s.fault ∧ SameLatches s t ∧ t.out = s.out

/-- R12's table as a whole-machine rule: an instruction, well formed or not, changes no register outside the ones listed for it (the
spec's inference from its instruction rules). -/
def Obligations.RegistersWrittenOnlyAsListed : Prop :=
  ∀ (i : Instr) (s t : State), exec i s = .next t → SameRegsExcept (regsWritten i) s t

/-- R32's table as a whole-machine rule: an instruction changes no byte of memory but the one cell listed for it: ST the cell at its
first register, PUSH and CALL the cell below the stack top, all others none. -/
def Obligations.MemoryWrittenOnlyAsListed : Prop :=
  ∀ (i : Instr) (s t : State), s.mem.wf = true → exec i s = .next t →
    ∀ a : Nat, (∀ c, cellWritten s i = some c → a % 256 ≠ c.toNat) → t.readByte a = s.readByte a

/-- The output trace is append-only and never read (R22): a step appends at most one record and does the same whatever the trace held. -/
def Obligations.OutputIsAppendOnlyAndNeverRead : Prop :=
  ∀ s t : State, step s = .next t →
    ∃ new : List OutRecord, new.length ≤ 1 ∧ t.out = s.out ++ new ∧
      ∀ before : List OutRecord, step { s with out := before } = .next { t with out := before ++ new }

/-- A store is seen by the very next fetch, also when it overwrites the storing instruction itself, which still completes from its
latched bytes (20_memory.md R41; 70_reset_and_hazards.md R181, the spec's decision D17, log 17). -/
def Obligations.StoreSeenByNextFetch : Prop :=
  ∀ (s : State) (a b : Reg), s.mem.wf = true → s.run = .running → s.nextInstr = .ok (.st (regByte a) (regByte b)) →
    ∃ t, step s = .next t ∧ t.run = .running ∧ t.pc = s.pc + 3 ∧
      t.fetch.ir = (if s.pc + 3 = s.reg a then s.reg b else s.readByte (s.pc + 3).toNat) ∧
      t.fetch.opa = (if s.pc + 4 = s.reg a then s.reg b else s.readByte (s.pc + 4).toNat) ∧
      t.fetch.opb = (if s.pc + 5 = s.reg a then s.reg b else s.readByte (s.pc + 5).toNat)

/-- The text of the trace: a DEC record is one to three decimal digits of its value without leading zero and then LF, a CHR record the
one code point of its value, and records follow one another with nothing between. LF and the values above 127 are the spec's
decision D9 (log 9). -/
def Obligations.RenderingOfTheTrace : Prop :=
  (∀ v : Byte, ∃ digits : List Nat, (OutRecord.mk .dec v).render = digits ++ [0x0A] ∧
    1 ≤ digits.length ∧ digits.length ≤ 3 ∧ (∀ d ∈ digits, 48 ≤ d ∧ d ≤ 57) ∧
    (digits.head? = some 48 → digits.length = 1) ∧
    digits.foldl (fun acc d => 10 * acc + (d - 48)) 0 = v.toNat) ∧
  (∀ v : Byte, (OutRecord.mk .chr v).render = [v.toNat]) ∧
  renderTrace [] = [] ∧ (∀ r : OutRecord, renderTrace [r] = r.render) ∧
  ∀ first rest : List OutRecord, renderTrace (first ++ rest) = renderTrace first ++ renderTrace rest
end

