-- ==== Sys2Proof/Laws/Decode.lean ====
section
/-! SUPPORT. The opcode map and its lookup. -/

namespace Sys2Proof

theorem mem_allMnemonics (m : Mnemonic) : m ∈ allMnemonics := by
  cases m <;> decide

/-- The lookup finds the row of every opcode: no two rows share one (30_encoding.md R55). -/
@[simp] theorem mnemonicOf_opcodeOf (m : Mnemonic) : mnemonicOf (opcodeOf m) = some m := by
  cases m <;> decide

/-- The lookup finds a row exactly when the byte is that row's opcode. -/
theorem mnemonicOf_eq_some {ir : Byte} {m : Mnemonic} : mnemonicOf ir = some m ↔ opcodeOf m = ir := by
  constructor
  · intro h
    simpa using List.find?_some h
  · rintro rfl; exact mnemonicOf_opcodeOf m

/-- The lookup finds nothing exactly when the byte is no row's opcode (R57). -/
theorem mnemonicOf_eq_none {ir : Byte} : mnemonicOf ir = none ↔ ∀ m, opcodeOf m ≠ ir := by
  constructor
  · rintro h m rfl
    rw [mnemonicOf_opcodeOf] at h
    cases h
  · intro h
    cases hm : mnemonicOf ir with
    | none => rfl
    | some m => exact absurd (mnemonicOf_eq_some.mp hm) (h m)

@[simp] theorem mnemonic_instr (m : Mnemonic) (a b : Byte) : (m.instr a b).mnemonic = m := by
  cases m <;> rfl

end Sys2Proof
end

