-- ==== Sys2Proof/Laws/State.lean ====
section
/-! SUPPORT. One lemma per field per update of the state, and reading a register after writing one. -/

namespace Sys2Proof.Machine.State

@[simp] theorem setReg_x (s : State) (r : Reg) (v : Byte) : (s.setReg r v).x = s.x.set r v := rfl
@[simp] theorem setReg_pc (s : State) (r : Reg) (v : Byte) : (s.setReg r v).pc = s.pc := rfl
@[simp] theorem setReg_fl (s : State) (r : Reg) (v : Byte) : (s.setReg r v).fl = s.fl := rfl
@[simp] theorem setReg_mem (s : State) (r : Reg) (v : Byte) : (s.setReg r v).mem = s.mem := rfl
@[simp] theorem setReg_run (s : State) (r : Reg) (v : Byte) : (s.setReg r v).run = s.run := rfl
@[simp] theorem setReg_fault (s : State) (r : Reg) (v : Byte) : (s.setReg r v).fault = s.fault := rfl
@[simp] theorem setReg_ir (s : State) (r : Reg) (v : Byte) : (s.setReg r v).ir = s.ir := rfl
@[simp] theorem setReg_opa (s : State) (r : Reg) (v : Byte) : (s.setReg r v).opa = s.opa := rfl
@[simp] theorem setReg_opb (s : State) (r : Reg) (v : Byte) : (s.setReg r v).opb = s.opb := rfl
@[simp] theorem setReg_out (s : State) (r : Reg) (v : Byte) : (s.setReg r v).out = s.out := rfl
@[simp] theorem readByte_setReg (s : State) (r : Reg) (v : Byte) (addr : Nat) : (s.setReg r v).readByte addr = s.readByte addr := rfl

@[simp] theorem setSp_x (s : State) (v : Byte) : (s.setSp v).x = s.x.set (7 : Reg) v := rfl
@[simp] theorem setSp_pc (s : State) (v : Byte) : (s.setSp v).pc = s.pc := rfl
@[simp] theorem setSp_fl (s : State) (v : Byte) : (s.setSp v).fl = s.fl := rfl
@[simp] theorem setSp_mem (s : State) (v : Byte) : (s.setSp v).mem = s.mem := rfl
@[simp] theorem setSp_run (s : State) (v : Byte) : (s.setSp v).run = s.run := rfl
@[simp] theorem setSp_fault (s : State) (v : Byte) : (s.setSp v).fault = s.fault := rfl
@[simp] theorem setSp_ir (s : State) (v : Byte) : (s.setSp v).ir = s.ir := rfl
@[simp] theorem setSp_opa (s : State) (v : Byte) : (s.setSp v).opa = s.opa := rfl
@[simp] theorem setSp_opb (s : State) (v : Byte) : (s.setSp v).opb = s.opb := rfl
@[simp] theorem setSp_out (s : State) (v : Byte) : (s.setSp v).out = s.out := rfl
@[simp] theorem readByte_setSp (s : State) (v : Byte) (addr : Nat) : (s.setSp v).readByte addr = s.readByte addr := rfl

@[simp] theorem writeByte_x (s : State) (a : Nat) (v : Byte) : (s.writeByte a v).x = s.x := rfl
@[simp] theorem writeByte_pc (s : State) (a : Nat) (v : Byte) : (s.writeByte a v).pc = s.pc := rfl
@[simp] theorem writeByte_fl (s : State) (a : Nat) (v : Byte) : (s.writeByte a v).fl = s.fl := rfl
@[simp] theorem writeByte_mem (s : State) (a : Nat) (v : Byte) : (s.writeByte a v).mem = s.mem.write a v := rfl
@[simp] theorem writeByte_run (s : State) (a : Nat) (v : Byte) : (s.writeByte a v).run = s.run := rfl
@[simp] theorem writeByte_fault (s : State) (a : Nat) (v : Byte) : (s.writeByte a v).fault = s.fault := rfl
@[simp] theorem writeByte_ir (s : State) (a : Nat) (v : Byte) : (s.writeByte a v).ir = s.ir := rfl
@[simp] theorem writeByte_opa (s : State) (a : Nat) (v : Byte) : (s.writeByte a v).opa = s.opa := rfl
@[simp] theorem writeByte_opb (s : State) (a : Nat) (v : Byte) : (s.writeByte a v).opb = s.opb := rfl
@[simp] theorem writeByte_out (s : State) (a : Nat) (v : Byte) : (s.writeByte a v).out = s.out := rfl
@[simp] theorem reg_writeByte (s : State) (a : Nat) (v : Byte) (r : Reg) : (s.writeByte a v).reg r = s.reg r := rfl

@[simp] theorem setPc_x (s : State) (v : Byte) : (s.setPc v).x = s.x := rfl
@[simp] theorem setPc_pc (s : State) (v : Byte) : (s.setPc v).pc = v := rfl
@[simp] theorem setPc_fl (s : State) (v : Byte) : (s.setPc v).fl = s.fl := rfl
@[simp] theorem setPc_mem (s : State) (v : Byte) : (s.setPc v).mem = s.mem := rfl
@[simp] theorem setPc_run (s : State) (v : Byte) : (s.setPc v).run = s.run := rfl
@[simp] theorem setPc_fault (s : State) (v : Byte) : (s.setPc v).fault = s.fault := rfl
@[simp] theorem setPc_ir (s : State) (v : Byte) : (s.setPc v).ir = s.ir := rfl
@[simp] theorem setPc_opa (s : State) (v : Byte) : (s.setPc v).opa = s.opa := rfl
@[simp] theorem setPc_opb (s : State) (v : Byte) : (s.setPc v).opb = s.opb := rfl
@[simp] theorem setPc_out (s : State) (v : Byte) : (s.setPc v).out = s.out := rfl
@[simp] theorem reg_setPc (s : State) (v : Byte) (r : Reg) : (s.setPc v).reg r = s.reg r := rfl
@[simp] theorem readByte_setPc (s : State) (v : Byte) (addr : Nat) : (s.setPc v).readByte addr = s.readByte addr := rfl

@[simp] theorem advance_x (s : State) (n : Nat) : (s.advance n).x = s.x := rfl
@[simp] theorem advance_pc (s : State) (n : Nat) : (s.advance n).pc = s.pc + 1 + BitVec.ofNat 8 n := rfl
@[simp] theorem advance_fl (s : State) (n : Nat) : (s.advance n).fl = s.fl := rfl
@[simp] theorem advance_mem (s : State) (n : Nat) : (s.advance n).mem = s.mem := rfl
@[simp] theorem advance_run (s : State) (n : Nat) : (s.advance n).run = s.run := rfl
@[simp] theorem advance_fault (s : State) (n : Nat) : (s.advance n).fault = s.fault := rfl
@[simp] theorem advance_ir (s : State) (n : Nat) : (s.advance n).ir = s.ir := rfl
@[simp] theorem advance_opa (s : State) (n : Nat) : (s.advance n).opa = s.opa := rfl
@[simp] theorem advance_opb (s : State) (n : Nat) : (s.advance n).opb = s.opb := rfl
@[simp] theorem advance_out (s : State) (n : Nat) : (s.advance n).out = s.out := rfl
@[simp] theorem reg_advance (s : State) (n : Nat) (r : Reg) : (s.advance n).reg r = s.reg r := rfl
@[simp] theorem readByte_advance (s : State) (n : Nat) (addr : Nat) : (s.advance n).readByte addr = s.readByte addr := rfl

@[simp] theorem setFl_x (s : State) (v : Byte) : (s.setFl v).x = s.x := rfl
@[simp] theorem setFl_pc (s : State) (v : Byte) : (s.setFl v).pc = s.pc := rfl
@[simp] theorem setFl_fl (s : State) (v : Byte) : (s.setFl v).fl = v := rfl
@[simp] theorem setFl_mem (s : State) (v : Byte) : (s.setFl v).mem = s.mem := rfl
@[simp] theorem setFl_run (s : State) (v : Byte) : (s.setFl v).run = s.run := rfl
@[simp] theorem setFl_fault (s : State) (v : Byte) : (s.setFl v).fault = s.fault := rfl
@[simp] theorem setFl_ir (s : State) (v : Byte) : (s.setFl v).ir = s.ir := rfl
@[simp] theorem setFl_opa (s : State) (v : Byte) : (s.setFl v).opa = s.opa := rfl
@[simp] theorem setFl_opb (s : State) (v : Byte) : (s.setFl v).opb = s.opb := rfl
@[simp] theorem setFl_out (s : State) (v : Byte) : (s.setFl v).out = s.out := rfl
@[simp] theorem reg_setFl (s : State) (v : Byte) (r : Reg) : (s.setFl v).reg r = s.reg r := rfl
@[simp] theorem readByte_setFl (s : State) (v : Byte) (addr : Nat) : (s.setFl v).readByte addr = s.readByte addr := rfl

@[simp] theorem emit_x (s : State) (k : OutKind) (v : Byte) : (s.emit k v).x = s.x := rfl
@[simp] theorem emit_pc (s : State) (k : OutKind) (v : Byte) : (s.emit k v).pc = s.pc := rfl
@[simp] theorem emit_fl (s : State) (k : OutKind) (v : Byte) : (s.emit k v).fl = s.fl := rfl
@[simp] theorem emit_mem (s : State) (k : OutKind) (v : Byte) : (s.emit k v).mem = s.mem := rfl
@[simp] theorem emit_run (s : State) (k : OutKind) (v : Byte) : (s.emit k v).run = s.run := rfl
@[simp] theorem emit_fault (s : State) (k : OutKind) (v : Byte) : (s.emit k v).fault = s.fault := rfl
@[simp] theorem emit_ir (s : State) (k : OutKind) (v : Byte) : (s.emit k v).ir = s.ir := rfl
@[simp] theorem emit_opa (s : State) (k : OutKind) (v : Byte) : (s.emit k v).opa = s.opa := rfl
@[simp] theorem emit_opb (s : State) (k : OutKind) (v : Byte) : (s.emit k v).opb = s.opb := rfl
@[simp] theorem emit_out (s : State) (k : OutKind) (v : Byte) : (s.emit k v).out = s.out ++ [⟨k, v⟩] := rfl
@[simp] theorem reg_emit (s : State) (k : OutKind) (v : Byte) (r : Reg) : (s.emit k v).reg r = s.reg r := rfl
@[simp] theorem readByte_emit (s : State) (k : OutKind) (v : Byte) (addr : Nat) : (s.emit k v).readByte addr = s.readByte addr := rfl

@[simp] theorem halt_x (s : State) : s.halt.x = s.x := rfl
@[simp] theorem halt_pc (s : State) : s.halt.pc = s.pc := rfl
@[simp] theorem halt_fl (s : State) : s.halt.fl = s.fl := rfl
@[simp] theorem halt_mem (s : State) : s.halt.mem = s.mem := rfl
@[simp] theorem halt_run (s : State) : s.halt.run = .halted := rfl
@[simp] theorem halt_fault (s : State) : s.halt.fault = s.fault := rfl
@[simp] theorem halt_ir (s : State) : s.halt.ir = s.ir := rfl
@[simp] theorem halt_opa (s : State) : s.halt.opa = s.opa := rfl
@[simp] theorem halt_opb (s : State) : s.halt.opb = s.opb := rfl
@[simp] theorem halt_out (s : State) : s.halt.out = s.out := rfl
@[simp] theorem reg_halt (s : State) (r : Reg) : s.halt.reg r = s.reg r := rfl
@[simp] theorem readByte_halt (s : State) (addr : Nat) : s.halt.readByte addr = s.readByte addr := rfl

@[simp] theorem fetch_x (s : State) : s.fetch.x = s.x := rfl
@[simp] theorem fetch_pc (s : State) : s.fetch.pc = s.pc := rfl
@[simp] theorem fetch_fl (s : State) : s.fetch.fl = s.fl := rfl
@[simp] theorem fetch_mem (s : State) : s.fetch.mem = s.mem := rfl
@[simp] theorem fetch_run (s : State) : s.fetch.run = s.run := rfl
@[simp] theorem fetch_fault (s : State) : s.fetch.fault = s.fault := rfl
@[simp] theorem fetch_ir (s : State) : s.fetch.ir = s.readByte s.pc.toNat := rfl
@[simp] theorem fetch_opa (s : State) : s.fetch.opa = s.readByte (s.pc.toNat + 1) := rfl
@[simp] theorem fetch_opb (s : State) : s.fetch.opb = s.readByte (s.pc.toNat + 2) := rfl
@[simp] theorem fetch_out (s : State) : s.fetch.out = s.out := rfl
@[simp] theorem reg_fetch (s : State) (r : Reg) : s.fetch.reg r = s.reg r := rfl
@[simp] theorem readByte_fetch (s : State) (addr : Nat) : s.fetch.readByte addr = s.readByte addr := rfl

@[simp] theorem raise_x (s : State) (f : FatalCondition) : (s.raise f).x = s.x := rfl
@[simp] theorem raise_pc (s : State) (f : FatalCondition) : (s.raise f).pc = s.pc := rfl
@[simp] theorem raise_fl (s : State) (f : FatalCondition) : (s.raise f).fl = s.fl := rfl
@[simp] theorem raise_mem (s : State) (f : FatalCondition) : (s.raise f).mem = s.mem := rfl
@[simp] theorem raise_run (s : State) (f : FatalCondition) : (s.raise f).run = .faulted := rfl
@[simp] theorem raise_fault (s : State) (f : FatalCondition) : (s.raise f).fault = ⟨f.code, s.pc, s.ir, f.operand⟩ := rfl
@[simp] theorem raise_ir (s : State) (f : FatalCondition) : (s.raise f).ir = s.ir := rfl
@[simp] theorem raise_opa (s : State) (f : FatalCondition) : (s.raise f).opa = s.opa := rfl
@[simp] theorem raise_opb (s : State) (f : FatalCondition) : (s.raise f).opb = s.opb := rfl
@[simp] theorem raise_out (s : State) (f : FatalCondition) : (s.raise f).out = s.out := rfl
@[simp] theorem reg_raise (s : State) (f : FatalCondition) (r : Reg) : (s.raise f).reg r = s.reg r := rfl
@[simp] theorem readByte_raise (s : State) (f : FatalCondition) (addr : Nat) : (s.raise f).readByte addr = s.readByte addr := rfl

@[simp] theorem reg_setReg_same (s : State) (r : Reg) (v : Byte) : (s.setReg r v).reg r = v := by
  simp [reg, setReg]

theorem reg_setReg (s : State) (r r' : Reg) (v : Byte) :
    (s.setReg r v).reg r' = if r' = r then v else s.reg r' := by
  simp only [reg, setReg, Fin.getElem_fin, Vector.getElem_set, Fin.ext_iff, eq_comm]

@[simp] theorem reg_setReg_ne {s : State} {r r' : Reg} {v : Byte} (h : r' ≠ r) : (s.setReg r v).reg r' = s.reg r' := by
  rw [reg_setReg, if_neg h]

/-- The stack pointer is register 7 (10_state.md R11). -/
@[simp] theorem sp_eq_reg (s : State) : s.sp = s.reg 7 := rfl

theorem reg_setSp (s : State) (r : Reg) (v : Byte) : (s.setSp v).reg r = if r = 7 then v else s.reg r :=
  reg_setReg s 7 r v

@[simp] theorem reg_setSp_same (s : State) (v : Byte) : (s.setSp v).reg 7 = v := reg_setReg_same s 7 v

@[simp] theorem reg_setSp_ne {s : State} {r : Reg} {v : Byte} (h : r ≠ 7) : (s.setSp v).reg r = s.reg r := by
  rw [reg_setSp, if_neg h]

end Sys2Proof.Machine.State
end

