-- ==== Sys2Proof/Laws/Memory.lean ====
section
/-! SUPPORT. Memory: reading after writing, every operation keeps the canonical form, and equal contents are equal lists. -/

namespace Sys2Proof.Machine

/-- A memory in canonical form from `n` on reads 0x00 below `n`. -/
theorem Memory.get_below {m : Memory} {n : Nat} (h : m.wfFrom n = true) {i : Nat} (hi : i < n) :
    m.get i = Config.memReset := by
  induction m generalizing n with
  | nil => rfl
  | cons c m ih =>
    simp only [Memory.wfFrom, Bool.and_eq_true, decide_eq_true_eq] at h
    rw [Memory.get, if_neg (by omega)]
    exact ih h.2 (by omega)

theorem Memory.get_put (m : Memory) (k j : Nat) (v : Byte) (lo : Nat) (h : m.wfFrom lo = true) :
    (m.put k v).get j = if j = k then v else m.get j := by
  induction m generalizing lo with
  | nil =>
    by_cases hv : v = Config.memReset
    · simp [Memory.put, Memory.get, hv]
    · rw [Memory.put, if_neg hv]
      rfl
  | cons c m ih =>
    obtain ⟨k', v'⟩ := c
    simp only [Memory.wfFrom, Bool.and_eq_true, decide_eq_true_eq] at h
    have hb := fun i (hi : i < k' + 1) => Memory.get_below h.2 hi
    simp only [Memory.put]
    split
    · split
      · by_cases hj : j = k
        · subst hj; simp only [Memory.get, if_pos]; rw [if_neg (by omega), hb _ (by omega)]; exact Eq.symm ‹_›
        · simp [hj]
      · simp [Memory.get]
    · split
      · subst k
        split
        · by_cases hj : j = k'
          · subst hj; rw [hb _ (by omega)]; simp [‹v = Config.memReset›]
          · simp [Memory.get, hj]
        · by_cases hj : j = k' <;> simp [Memory.get, hj]
      · by_cases hj : j = k'
        · subst hj; rw [Memory.get, if_pos rfl, if_neg (by omega), Memory.get, if_pos rfl]
        · rw [Memory.get, if_neg hj, ih _ h.2, Memory.get, if_neg hj]

theorem Memory.wfFrom_mono {m : Memory} {lo lo' : Nat} (h : m.wfFrom lo = true) (hle : lo' ≤ lo) : m.wfFrom lo' = true := by
  cases m with
  | nil => rfl
  | cons c m =>
    simp only [Memory.wfFrom, Bool.and_eq_true, decide_eq_true_eq] at h ⊢
    exact ⟨⟨⟨by omega, h.1.1.2⟩, h.1.2⟩, h.2⟩

theorem Memory.put_wfFrom {m : Memory} {lo k : Nat} (v : Byte) (h : m.wfFrom lo = true) (hlo : lo ≤ k) (hk : k < 256) :
    (m.put k v).wfFrom lo = true := by
  induction m generalizing lo with
  | nil =>
    by_cases hv : v = Config.memReset
    · rw [Memory.put, if_pos hv, Memory.wfFrom]
    · rw [Memory.put, if_neg hv]
      simp only [Memory.wfFrom, Bool.and_eq_true, decide_eq_true_eq]
      exact ⟨⟨⟨hlo, hk⟩, hv⟩, trivial⟩
  | cons c m ih =>
    obtain ⟨k', v'⟩ := c
    have hc := h
    simp only [Memory.wfFrom, Bool.and_eq_true, decide_eq_true_eq] at hc
    simp only [Memory.put]
    split
    · split
      · exact h
      · simp only [Memory.wfFrom, Bool.and_eq_true, decide_eq_true_eq]
        exact ⟨⟨⟨hlo, hk⟩, ‹_›⟩, ⟨⟨by omega, hc.1.1.2⟩, hc.1.2⟩, hc.2⟩
    · split
      · split
        · exact Memory.wfFrom_mono hc.2 (by omega)
        · subst k
          simp only [Memory.wfFrom, Bool.and_eq_true, decide_eq_true_eq]
          exact ⟨⟨⟨hlo, hk⟩, ‹_›⟩, hc.2⟩
      · simp only [Memory.wfFrom, Bool.and_eq_true, decide_eq_true_eq]
        exact ⟨hc.1, ih hc.2 (by omega)⟩

/-- Every write keeps the canonical form. -/
theorem Memory.write_wf {m : Memory} (h : m.wf = true) (addr : Nat) (v : Byte) : (m.write addr v).wf = true :=
  Memory.put_wfFrom v h (Nat.zero_le _) (Nat.mod_lt _ (by decide))

/-- Reading after writing: the cell written gives the value, every other cell what it gave. -/
theorem Memory.read_write {m : Memory} (h : m.wf = true) (addr a : Nat) (v : Byte) :
    (m.write addr v).read a = if a % 256 = addr % 256 then v else m.read a :=
  Memory.get_put m _ _ v 0 h

theorem Memory.wfFrom_ext {m m' : Memory} {lo : Nat} (h : m.wfFrom lo = true) (h' : m'.wfFrom lo = true)
    (same : ∀ k, k < 256 → m.get k = m'.get k) : m = m' := by
  induction m generalizing m' lo with
  | nil =>
    cases m' with
    | nil => rfl
    | cons c m' =>
      simp only [Memory.wfFrom, Bool.and_eq_true, decide_eq_true_eq] at h'
      have := same c.1 h'.1.1.2
      simp only [Memory.get, if_pos] at this
      exact absurd this.symm h'.1.2
  | cons c m ih =>
    obtain ⟨k, v⟩ := c
    simp only [Memory.wfFrom, Bool.and_eq_true, decide_eq_true_eq] at h
    cases m' with
    | nil =>
      have := same k h.1.1.2
      simp only [Memory.get, if_pos] at this
      exact absurd this h.1.2
    | cons c' m' =>
      obtain ⟨k', v'⟩ := c'
      simp only [Memory.wfFrom, Bool.and_eq_true, decide_eq_true_eq] at h'
      have hk : k = k' := by
        rcases Nat.lt_trichotomy k k' with hlt | heq | hgt
        · have := same k h.1.1.2
          simp only [Memory.get, if_pos, if_neg (show k ≠ k' by omega)] at this
          rw [Memory.get_below h'.2 (i := k) (by omega)] at this
          exact absurd this h.1.2
        · exact heq
        · have := same k' h'.1.1.2
          simp only [Memory.get, if_pos, if_neg (show k' ≠ k by omega)] at this
          rw [Memory.get_below h.2 (i := k') (by omega)] at this
          exact absurd this.symm h'.1.2
      subst hk
      have hv := same k h.1.1.2
      simp only [Memory.get, if_pos] at hv
      subst hv
      rw [ih h.2 h'.2]
      intro j hj
      by_cases hjk : j = k
      · rw [Memory.get_below h.2 (i := j) (by omega), Memory.get_below h'.2 (i := j) (by omega)]
      · have := same j hj
        simpa only [Memory.get, if_neg hjk] using this

/-- Two memories in canonical form that read alike are the same data. -/
theorem Memory.eq_of_read_eq {m m' : Memory} (h : m.wf = true) (h' : m'.wf = true) (same : ∀ a, m.read a = m'.read a) : m = m' := by
  refine Memory.wfFrom_ext h h' fun k hk => ?_
  simpa only [Memory.read, Nat.mod_eq_of_lt hk] using same k

/-- Reading after storing one byte in the machine's memory. -/
theorem State.readByte_writeByte {s : State} (h : s.mem.wf = true) (addr a : Nat) (v : Byte) :
    (s.writeByte addr v).readByte a = if a % 256 = addr % 256 then v else s.readByte a :=
  Memory.read_write h addr a v

theorem State.storeBytes_wf {s : State} (h : s.mem.wf = true) (addr : Nat) (vs : List Byte) :
    (s.storeBytes addr vs).mem.wf = true := by
  induction vs generalizing s addr with
  | nil => exact h
  | cons v vs ih => exact ih (Memory.write_wf h addr v) (addr + 1)

/-- Storing bytes changes memory and nothing else. -/
theorem State.storeBytes_eq (s : State) (addr : Nat) (vs : List Byte) :
    s.storeBytes addr vs = { s with mem := (s.storeBytes addr vs).mem } := by
  induction vs generalizing s addr with
  | nil => rfl
  | cons v vs ih => rw [State.storeBytes, ih]; rfl

end Sys2Proof.Machine
end

