-- ==== Sys2Proof/Laws/Operands.lean ====
section
/-! SUPPORT. The register-index check: what an operand byte names, and everything `withReg` and `withRegs` can answer. -/

namespace Sys2Proof.Machine

/-- The operand byte of a register names that register. -/
@[simp] theorem asReg_regByte (r : Reg) : asReg (regByte r) = some r := by
  revert r; decide

/-- An operand byte names a register exactly when it is that register's byte. -/
theorem asReg_eq_some {w : Byte} {r : Reg} : asReg w = some r ↔ w = regByte r := by
  constructor
  · intro h
    rw [asReg] at h
    split at h
    · obtain rfl := Option.some.inj h
      simp [regByte]
    · cases h
  · rintro rfl; exact asReg_regByte r

/-- An operand byte names no register exactly when it is above 7 (30_encoding.md R59). -/
theorem asReg_eq_none {w : Byte} : asReg w = none ↔ 7 < w.toNat := by
  rw [asReg]
  split <;> simp <;> omega

@[simp] theorem withReg_regByte (r : Reg) (s : State) (k : Reg → State) : withReg (regByte r) s k = .next (k r) := by
  rw [withReg, asReg_regByte]

@[simp] theorem withRegs_regByte (r q : Reg) (s : State) (k : Reg → Reg → State) :
    withRegs (regByte r) (regByte q) s k = .next (k r q) := by
  rw [withRegs, asReg_regByte, asReg_regByte]

/-- What an instruction with one register operand can do: its effect, or InvalidRegisterIndex. -/
theorem withReg_cases (a : Byte) (s : State) (k : Reg → State) :
    (∃ r, a = regByte r ∧ withReg a s k = .next (k r)) ∨
    (7 < a.toNat ∧ withReg a s k = .next (s.raise (.invalidRegisterIndex a))) := by
  cases h : asReg a with
  | none => exact .inr ⟨asReg_eq_none.mp h, by rw [withReg, h]⟩
  | some r => exact .inl ⟨r, asReg_eq_some.mp h, by rw [withReg, h]⟩

/-- What an instruction with two register operands can do: its effect, or InvalidRegisterIndex on opa, or on opb. -/
theorem withRegs_cases (a b : Byte) (s : State) (k : Reg → Reg → State) :
    (∃ r q, a = regByte r ∧ b = regByte q ∧ withRegs a b s k = .next (k r q)) ∨
    (7 < a.toNat ∧ withRegs a b s k = .next (s.raise (.invalidRegisterIndex a))) ∨
    (∃ r, a = regByte r ∧ 7 < b.toNat ∧ withRegs a b s k = .next (s.raise (.invalidRegisterIndex b))) := by
  cases ha : asReg a with
  | none => exact .inr (.inl ⟨asReg_eq_none.mp ha, by rw [withRegs, ha]⟩)
  | some r =>
    cases hb : asReg b with
    | none => exact .inr (.inr ⟨r, asReg_eq_some.mp ha, asReg_eq_none.mp hb, by rw [withRegs, ha, hb]⟩)
    | some q => exact .inl ⟨r, q, asReg_eq_some.mp ha, asReg_eq_some.mp hb, by rw [withRegs, ha, hb]⟩

end Sys2Proof.Machine
end

