-- ==== Sys2Proof/Laws/Exec.lean ====
section
/-! SUPPORT. What executing an instruction and taking a step can do, said once. -/

namespace Sys2Proof.Machine

/-- Taking a fatal condition leaves all else as it was (60_exceptions.md R154). -/
theorem State.raise_faultTaken (s : State) (f : FatalCondition) :
    FaultTaken ⟨f.code, s.pc, s.ir, f.operand⟩ s (s.raise f) :=
  ⟨rfl, rfl, rfl, fun _ => rfl, rfl, fun _ => rfl, ⟨rfl, rfl, rfl⟩, rfl⟩

/-- A jump with a register in range goes to the register's value or past itself. -/
@[simp] theorem jumpWhen_regByte (taken : Bool) (r : Reg) (s : State) :
    jumpWhen taken (regByte r) s = .next (s.setPc (if taken then s.reg r else s.pc + 2)) := by
  cases taken <;> simp [jumpWhen]

/-- A writing ALU operation with registers in range. -/
@[simp] theorem aluWrite_regByte (f : Byte → Byte → Byte) (r q : Reg) (s : State) :
    aluWrite f (regByte r) (regByte q) s = .next ((s.setReg r (f (s.reg r) (s.reg q))).advance 2) := by
  simp [aluWrite]

/-! One equation per instruction with its registers in range: the effect the meaning names, as the next state. -/

theorem exec_add (r q : Reg) (s : State) : exec (.add (regByte r) (regByte q)) s = .next ((s.setReg r (aluAdd (s.reg r) (s.reg q))).advance 2) := by
  simp [exec, execAdd]

theorem exec_mul (r q : Reg) (s : State) : exec (.mul (regByte r) (regByte q)) s = .next ((s.setReg r (aluMul (s.reg r) (s.reg q))).advance 2) := by
  simp [exec, execMul]

theorem exec_and (r q : Reg) (s : State) : exec (.and (regByte r) (regByte q)) s = .next ((s.setReg r (aluAnd (s.reg r) (s.reg q))).advance 2) := by
  simp [exec, execAnd]

theorem exec_or (r q : Reg) (s : State) : exec (.or (regByte r) (regByte q)) s = .next ((s.setReg r (aluOr (s.reg r) (s.reg q))).advance 2) := by
  simp [exec, execOr]

theorem exec_xor (r q : Reg) (s : State) : exec (.xor (regByte r) (regByte q)) s = .next ((s.setReg r (aluXor (s.reg r) (s.reg q))).advance 2) := by
  simp [exec, execXor]

theorem exec_shl (r q : Reg) (s : State) : exec (.shl (regByte r) (regByte q)) s = .next ((s.setReg r (aluShl (s.reg r) (s.reg q))).advance 2) := by
  simp [exec, execShl]

theorem exec_shr (r q : Reg) (s : State) : exec (.shr (regByte r) (regByte q)) s = .next ((s.setReg r (aluShr (s.reg r) (s.reg q))).advance 2) := by
  simp [exec, execShr]

theorem exec_mod (r q : Reg) (s : State) : exec (.mod (regByte r) (regByte q)) s =
    .next (if s.reg q = 0 then s.halt.advance 2 else (s.setReg r (aluMod (s.reg r) (s.reg q))).advance 2) := by
  simp [exec, execMod]

theorem exec_cmp (r q : Reg) (s : State) : exec (.cmp (regByte r) (regByte q)) s = .next ((s.setFl (compareFlags (s.reg r) (s.reg q))).advance 2) := by
  simp [exec, execCmp]

theorem exec_st (r q : Reg) (s : State) : exec (.st (regByte r) (regByte q)) s = .next ((s.writeByte (s.reg r).toNat (s.reg q)).advance 2) := by
  simp [exec, execSt]

theorem exec_not (r : Reg) (s : State) : exec (.not (regByte r)) s = .next ((s.setReg r (aluNot (s.reg r))).advance 1) := by
  simp [exec, execNot]

theorem exec_ldi (r : Reg) (imm8 : Byte) (s : State) : exec (.ldi (regByte r) imm8) s = .next ((s.setReg r imm8).advance 2) := by
  simp [exec, execLdi]

theorem exec_prn (r : Reg) (s : State) : exec (.prn (regByte r)) s = .next ((s.emit .dec (s.reg r)).advance 1) := by
  simp [exec, execPrn]

theorem exec_pra (r : Reg) (s : State) : exec (.pra (regByte r)) s = .next ((s.emit .chr (s.reg r)).advance 1) := by
  simp [exec, execPra]

theorem exec_push (r : Reg) (s : State) : exec (.push (regByte r)) s = .next ((s.decSp.setTop (s.decSp.reg r)).advance 1) := by
  simp [exec, execPush]

theorem exec_pop (r : Reg) (s : State) : exec (.pop (regByte r)) s = .next ((s.setReg r s.top).incSp.advance 1) := by
  simp [exec, execPop]

theorem exec_call (r : Reg) (s : State) : exec (.call (regByte r)) s = .next ((s.decSp.setTop (s.pc + 2)).setPc (s.decSp.reg r)) := by
  simp [exec, execCall]

theorem exec_ret (s : State) : exec .ret s = .next (s.setPc s.top).incSp := rfl

theorem exec_hlt (s : State) : exec .hlt s = .next (s.halt.advance 0) := rfl

theorem exec_jeq (r : Reg) (s : State) : exec (.jeq (regByte r)) s = .next (s.setPc (if takenJeq s.fl then s.reg r else s.pc + 2)) := by
  simp [exec, execJeq]

theorem exec_jne (r : Reg) (s : State) : exec (.jne (regByte r)) s = .next (s.setPc (if takenJne s.fl then s.reg r else s.pc + 2)) := by
  simp [exec, execJne]

theorem exec_jgt (r : Reg) (s : State) : exec (.jgt (regByte r)) s = .next (s.setPc (if takenJgt s.fl then s.reg r else s.pc + 2)) := by
  simp [exec, execJgt]

theorem exec_jlt (r : Reg) (s : State) : exec (.jlt (regByte r)) s = .next (s.setPc (if takenJlt s.fl then s.reg r else s.pc + 2)) := by
  simp [exec, execJlt]

theorem exec_jge (r : Reg) (s : State) : exec (.jge (regByte r)) s = .next (s.setPc (if takenJge s.fl then s.reg r else s.pc + 2)) := by
  simp [exec, execJge]

theorem exec_jle (r : Reg) (s : State) : exec (.jle (regByte r)) s = .next (s.setPc (if takenJle s.fl then s.reg r else s.pc + 2)) := by
  simp [exec, execJle]

theorem exec_jmp (r : Reg) (s : State) : exec (.jmp (regByte r)) s = .next (s.setPc (s.reg r)) := by
  simp [exec, execJmp]

/-- No instruction stops the machine: executing answers a next state. -/
theorem exec_next (i : Instr) (s : State) : ∃ t, exec i s = .next t := by
  have one : ∀ a (k : Reg → State), ∃ t, withReg a s k = .next t := by
    intro a k
    rcases withReg_cases a s k with ⟨r, -, h⟩ | ⟨-, h⟩ <;> exact ⟨_, h⟩
  have two : ∀ a b (k : Reg → Reg → State), ∃ t, withRegs a b s k = .next t := by
    intro a b k
    rcases withRegs_cases a b s k with ⟨r, q, -, -, h⟩ | ⟨-, h⟩ | ⟨r, -, -, h⟩ <;> exact ⟨_, h⟩
  cases i with
  | hlt => exact ⟨_, rfl⟩
  | ret => exact ⟨_, rfl⟩
  | push a => exact one _ _
  | pop a => exact one _ _
  | prn a => exact one _ _
  | pra a => exact one _ _
  | call a => exact one _ _
  | jmp a => exact one _ _
  | jeq a => exact one _ _
  | jne a => exact one _ _
  | jgt a => exact one _ _
  | jlt a => exact one _ _
  | jle a => exact one _ _
  | jge a => exact one _ _
  | not a => exact one _ _
  | ldi a imm8 => exact one _ _
  | st a b => exact two _ _ _
  | add a b => exact two _ _ _
  | mul a b => exact two _ _ _
  | mod a b => exact two _ _ _
  | cmp a b => exact two _ _ _
  | and a b => exact two _ _ _
  | or a b => exact two _ _ _
  | xor a b => exact two _ _ _
  | shl a b => exact two _ _ _
  | shr a b => exact two _ _ _

/-- The latched bytes of a fetch decode to what the next fetch reads. -/
theorem State.fetch_latched (s : State) : s.fetch.latched = s.nextInstr := rfl

/-- What a step can do: stop, run the instruction it fetched, or reject the opcode byte. -/
theorem step_cases (s : State) :
    (s.run = .notStarted ∧ step s = .fault .notStarted) ∨
    (s.run = .halted ∧ step s = .fault .halted) ∨
    (s.run = .faulted ∧ step s = .fault (.fatal s.fault)) ∨
    (s.run = .running ∧ ∃ i, s.nextInstr = .ok i ∧ step s = exec i s.fetch) ∨
    (s.run = .running ∧ ∃ e, s.nextInstr = .error e ∧ step s = .next (s.fetch.raise .unsupportedInstruction)) := by
  cases hr : s.run with
  | notStarted => exact .inl ⟨rfl, by simp only [step, State.stopped, hr]⟩
  | halted => exact .inr (.inl ⟨rfl, by simp only [step, State.stopped, hr]⟩)
  | faulted => exact .inr (.inr (.inl ⟨rfl, by simp only [step, State.stopped, hr]⟩))
  | running =>
    cases hd : s.nextInstr with
    | ok i => exact .inr (.inr (.inr (.inl ⟨rfl, i, rfl, by simp only [step, State.stopped, hr, State.fetch_latched, hd]⟩)))
    | error e =>
      exact .inr (.inr (.inr (.inr ⟨rfl, e, rfl, by simp only [step, State.stopped, hr, State.fetch_latched, hd, rejected]⟩)))

/-- What the host can do, said once (70_reset_and_hazards.md R172): reset at any time, a load or the start before the run starts. -/
theorem State.host_eq_some {s t : State} {m : HostMove} :
    s.host m = some t ↔
      (m = .reset ∧ t = State.reset) ∨
      (s.run = .notStarted ∧ ∃ addr v, m = .load addr v ∧ t = s.writeByte addr v) ∨
      (s.run = .notStarted ∧ m = .start ∧ t = { s with run := .running }) := by
  cases m with
  | reset => simp [State.host, eq_comm]
  | load addr v => cases hr : s.run <;> simp [State.host, State.load, hr, eq_comm]
  | start => cases hr : s.run <;> simp [State.host, State.start, hr, eq_comm]

/-- Before the run starts the loader's writes are those of the bytes stored in order. -/
theorem State.loadImage_eq {s : State} (h : s.run = .notStarted) (addr : Nat) (image : List Byte) :
    s.loadImage addr image = some (s.storeBytes addr image) := by
  induction image generalizing s addr with
  | nil => rfl
  | cons v vs ih =>
    simp only [State.loadImage, State.load, h, Option.bind_some, State.storeBytes]
    exact ih (s := s.writeByte addr v) h (addr + 1)

/-- A launch succeeds exactly for an image that fits, and gives reset with the image in memory and RUNNING. -/
theorem launch_eq_some {image : List Byte} {s : State} :
    launch image = some s ↔
      image.length ≤ 256 ∧ s = { State.reset with mem := (State.reset.storeBytes 0 image).mem, run := .running } := by
  have hs : (State.reset.storeBytes 0 image).start =
      some { State.reset with mem := (State.reset.storeBytes 0 image).mem, run := .running } := by
    rw [State.storeBytes_eq]; rfl
  rw [launch, State.loadImage_eq rfl]
  by_cases h : image.length ≤ Config.memSize
  · rw [if_pos h, Option.bind_some, hs, Option.some.injEq]
    exact ⟨fun e => ⟨h, e.symm⟩, fun e => e.2.symm⟩
  · rw [if_neg h]
    exact ⟨fun e => (by cases e), fun e => absurd e.1 h⟩

end Sys2Proof.Machine
end

