-- ==== Sys2Proof/Laws/Flags.lean ====
section
/-! SUPPORT. The compare: the three outcomes of CMP and the flags each sets (41_alu.md R99). -/

namespace Sys2Proof.Machine

/-- Exactly one of E, G and L is set by a compare. -/
theorem compareFlags_cases (x y : Byte) :
    (x.toNat = y.toNat ∧ compareFlags x y = 0x01) ∨
    (x.toNat > y.toNat ∧ compareFlags x y = 0x02) ∨
    (x.toNat < y.toNat ∧ compareFlags x y = 0x04) := by
  rcases Nat.lt_trichotomy x.toNat y.toNat with h | h | h
  · exact .inr (.inr ⟨h, by simp [compareFlags, h, Nat.ne_of_lt h, Nat.lt_asymm h]⟩)
  · exact .inl ⟨h, by simp [compareFlags, h]⟩
  · exact .inr (.inl ⟨h, by simp [compareFlags, h, Nat.ne_of_gt h, Nat.lt_asymm h]⟩)

end Sys2Proof.Machine
end

