-- ==== Sys2Proof/Laws/PerInstr.lean ====
section
/-! SUPPORT. Laws stated per instruction: the family RowShape, about an instruction as syntax. -/

/-- An instruction has the operand bytes of its row's format (30_encoding.md R51), and it is its row's instruction with the
operand bytes it has, the missing ones read as any byte. -/
def Sys2Proof.Laws.RowShape.Statement (i : Sys2Proof.Instr) : Prop :=
  i.operandBytes.length = i.mnemonic.format.operandCount ∧
  ∀ more : List Sys2Proof.Byte,
    i.mnemonic.instr ((i.operandBytes ++ more)[0]?.getD 0) ((i.operandBytes ++ more)[1]?.getD 0) = i

theorem Sys2Proof.Laws.RowShape.hlt : Sys2Proof.Laws.RowShape.Statement .hlt :=
  ⟨rfl, fun _ => rfl⟩

theorem Sys2Proof.Laws.RowShape.ret : Sys2Proof.Laws.RowShape.Statement .ret :=
  ⟨rfl, fun _ => rfl⟩

theorem Sys2Proof.Laws.RowShape.push (a : Sys2Proof.Byte) : Sys2Proof.Laws.RowShape.Statement (.push a) :=
  ⟨rfl, fun _ => rfl⟩

theorem Sys2Proof.Laws.RowShape.pop (a : Sys2Proof.Byte) : Sys2Proof.Laws.RowShape.Statement (.pop a) :=
  ⟨rfl, fun _ => rfl⟩

theorem Sys2Proof.Laws.RowShape.prn (a : Sys2Proof.Byte) : Sys2Proof.Laws.RowShape.Statement (.prn a) :=
  ⟨rfl, fun _ => rfl⟩

theorem Sys2Proof.Laws.RowShape.pra (a : Sys2Proof.Byte) : Sys2Proof.Laws.RowShape.Statement (.pra a) :=
  ⟨rfl, fun _ => rfl⟩

theorem Sys2Proof.Laws.RowShape.call (a : Sys2Proof.Byte) : Sys2Proof.Laws.RowShape.Statement (.call a) :=
  ⟨rfl, fun _ => rfl⟩

theorem Sys2Proof.Laws.RowShape.jmp (a : Sys2Proof.Byte) : Sys2Proof.Laws.RowShape.Statement (.jmp a) :=
  ⟨rfl, fun _ => rfl⟩

theorem Sys2Proof.Laws.RowShape.jeq (a : Sys2Proof.Byte) : Sys2Proof.Laws.RowShape.Statement (.jeq a) :=
  ⟨rfl, fun _ => rfl⟩

theorem Sys2Proof.Laws.RowShape.jne (a : Sys2Proof.Byte) : Sys2Proof.Laws.RowShape.Statement (.jne a) :=
  ⟨rfl, fun _ => rfl⟩

theorem Sys2Proof.Laws.RowShape.jgt (a : Sys2Proof.Byte) : Sys2Proof.Laws.RowShape.Statement (.jgt a) :=
  ⟨rfl, fun _ => rfl⟩

theorem Sys2Proof.Laws.RowShape.jlt (a : Sys2Proof.Byte) : Sys2Proof.Laws.RowShape.Statement (.jlt a) :=
  ⟨rfl, fun _ => rfl⟩

theorem Sys2Proof.Laws.RowShape.jle (a : Sys2Proof.Byte) : Sys2Proof.Laws.RowShape.Statement (.jle a) :=
  ⟨rfl, fun _ => rfl⟩

theorem Sys2Proof.Laws.RowShape.jge (a : Sys2Proof.Byte) : Sys2Proof.Laws.RowShape.Statement (.jge a) :=
  ⟨rfl, fun _ => rfl⟩

theorem Sys2Proof.Laws.RowShape.not (a : Sys2Proof.Byte) : Sys2Proof.Laws.RowShape.Statement (.not a) :=
  ⟨rfl, fun _ => rfl⟩

theorem Sys2Proof.Laws.RowShape.ldi (a imm8 : Sys2Proof.Byte) : Sys2Proof.Laws.RowShape.Statement (.ldi a imm8) :=
  ⟨rfl, fun _ => rfl⟩

theorem Sys2Proof.Laws.RowShape.st (a b : Sys2Proof.Byte) : Sys2Proof.Laws.RowShape.Statement (.st a b) :=
  ⟨rfl, fun _ => rfl⟩

theorem Sys2Proof.Laws.RowShape.add (a b : Sys2Proof.Byte) : Sys2Proof.Laws.RowShape.Statement (.add a b) :=
  ⟨rfl, fun _ => rfl⟩

theorem Sys2Proof.Laws.RowShape.mul (a b : Sys2Proof.Byte) : Sys2Proof.Laws.RowShape.Statement (.mul a b) :=
  ⟨rfl, fun _ => rfl⟩

theorem Sys2Proof.Laws.RowShape.mod (a b : Sys2Proof.Byte) : Sys2Proof.Laws.RowShape.Statement (.mod a b) :=
  ⟨rfl, fun _ => rfl⟩

theorem Sys2Proof.Laws.RowShape.cmp (a b : Sys2Proof.Byte) : Sys2Proof.Laws.RowShape.Statement (.cmp a b) :=
  ⟨rfl, fun _ => rfl⟩

theorem Sys2Proof.Laws.RowShape.and (a b : Sys2Proof.Byte) : Sys2Proof.Laws.RowShape.Statement (.and a b) :=
  ⟨rfl, fun _ => rfl⟩

theorem Sys2Proof.Laws.RowShape.or (a b : Sys2Proof.Byte) : Sys2Proof.Laws.RowShape.Statement (.or a b) :=
  ⟨rfl, fun _ => rfl⟩

theorem Sys2Proof.Laws.RowShape.xor (a b : Sys2Proof.Byte) : Sys2Proof.Laws.RowShape.Statement (.xor a b) :=
  ⟨rfl, fun _ => rfl⟩

theorem Sys2Proof.Laws.RowShape.shl (a b : Sys2Proof.Byte) : Sys2Proof.Laws.RowShape.Statement (.shl a b) :=
  ⟨rfl, fun _ => rfl⟩

theorem Sys2Proof.Laws.RowShape.shr (a b : Sys2Proof.Byte) : Sys2Proof.Laws.RowShape.Statement (.shr a b) :=
  ⟨rfl, fun _ => rfl⟩
end

