-- ==== Sys2Proof/Tests/Slice0.lean ====
section
/-! SUPPORT. Tests of the model's own: the well-formedness smoke test, one decoding per constructor, single steps whose expected
results are the vectors of spec/95_test_vectors.md, and a witness for the hypotheses of every statement. -/

namespace Sys2Proof.Tests

open Sys2Proof.Machine

/-! ## Well-formedness: an ill-formed term for each check -/

theorem test_wf_refuses_opa_8 : (Instr.push 8).wf = false := by decide
theorem test_wf_refuses_opa_of_two : (Instr.add 255 0).wf = false := by decide
theorem test_wf_refuses_opb : (Instr.st 7 8).wf = false := by decide
theorem test_wf_refuses_ldi_register : (Instr.ldi 8 5).wf = false := by decide
theorem test_wf_accepts_ldi_immediate_above_7 : (Instr.ldi 7 255).wf = true := by decide
theorem test_badOperand_reports_opa_first : (Instr.add 8 9).badOperand = some 8 := by decide

/-! ## Decoding: one word of each row, written out from 30_encoding.md R55 and R51 -/

theorem test_decode_hlt : decode 0b00000001 0b00000101 0b00000110 = .ok .hlt := by decide
theorem test_decode_ret : decode 0b00010001 0b00000101 0b00000110 = .ok .ret := by decide
theorem test_decode_push : decode 0b01000101 0b00000101 0b00000110 = .ok (.push 5) := by decide
theorem test_decode_pop : decode 0b01000110 0b00000101 0b00000110 = .ok (.pop 5) := by decide
theorem test_decode_prn : decode 0b01000111 0b00000101 0b00000110 = .ok (.prn 5) := by decide
theorem test_decode_pra : decode 0b01001000 0b00000101 0b00000110 = .ok (.pra 5) := by decide
theorem test_decode_call : decode 0b01010000 0b00000101 0b00000110 = .ok (.call 5) := by decide
theorem test_decode_jmp : decode 0b01010100 0b00000101 0b00000110 = .ok (.jmp 5) := by decide
theorem test_decode_jeq : decode 0b01010101 0b00000101 0b00000110 = .ok (.jeq 5) := by decide
theorem test_decode_jne : decode 0b01010110 0b00000101 0b00000110 = .ok (.jne 5) := by decide
theorem test_decode_jgt : decode 0b01010111 0b00000101 0b00000110 = .ok (.jgt 5) := by decide
theorem test_decode_jlt : decode 0b01011000 0b00000101 0b00000110 = .ok (.jlt 5) := by decide
theorem test_decode_jle : decode 0b01011001 0b00000101 0b00000110 = .ok (.jle 5) := by decide
theorem test_decode_jge : decode 0b01011010 0b00000101 0b00000110 = .ok (.jge 5) := by decide
theorem test_decode_not : decode 0b01101001 0b00000101 0b00000110 = .ok (.not 5) := by decide
theorem test_decode_ldi : decode 0b10000010 0b00000101 0b00000110 = .ok (.ldi 5 6) := by decide
theorem test_decode_st : decode 0b10000100 0b00000101 0b00000110 = .ok (.st 5 6) := by decide
theorem test_decode_add : decode 0b10100000 0b00000101 0b00000110 = .ok (.add 5 6) := by decide
theorem test_decode_mul : decode 0b10100010 0b00000101 0b00000110 = .ok (.mul 5 6) := by decide
theorem test_decode_mod : decode 0b10100100 0b00000101 0b00000110 = .ok (.mod 5 6) := by decide
theorem test_decode_cmp : decode 0b10100111 0b00000101 0b00000110 = .ok (.cmp 5 6) := by decide
theorem test_decode_and : decode 0b10101000 0b00000101 0b00000110 = .ok (.and 5 6) := by decide
theorem test_decode_or : decode 0b10101010 0b00000101 0b00000110 = .ok (.or 5 6) := by decide
theorem test_decode_xor : decode 0b10101011 0b00000101 0b00000110 = .ok (.xor 5 6) := by decide
theorem test_decode_shl : decode 0b10101100 0b00000101 0b00000110 = .ok (.shl 5 6) := by decide
theorem test_decode_shr : decode 0b10101101 0b00000101 0b00000110 = .ok (.shr 5 6) := by decide
theorem test_decode_rejects_zero : decode 0x00 0 0 = .error (.unsupportedOpcode 0x00) := by decide
theorem test_decode_rejects_sub : decode 0xA1 0 1 = .error (.unsupportedOpcode 0xA1) := by decide
theorem test_decode_rejects_three_operands : decode 0xC0 0 1 = .error (.unsupportedOpcode 0xC0) := by decide
theorem test_encode_ldi : encode (.ldi 0 8) = [0x82, 0x00, 0x08] := by decide
theorem test_decodeBytes_keeps_rest : decodeBytes [0x69, 0x03, 0x47] = .ok (.not 3, [0x47]) := by decide
theorem test_decodeBytes_truncated : decodeBytes [0x82, 0x03] = .error .truncated := by decide
theorem test_decodeTableWord_add : decodeTableWord 24 0x0100A0 = some (.add 0 1) := by decide
theorem test_decodeTableWord_masks : decodeTableWord 8 0x0100A0 = some (.add 0 0) := by decide

/-! ## Single steps -/

/-- What holds after one step, where a step is taken. -/
def after (s : State) (p : State → Bool) : Bool :=
  match step s with
  | .next t => p t
  | .fault _ | .refused _ => false

/-- The machine started with nothing loaded. -/
def started : State := { State.reset with run := .running }

/-- The started machine with PC and the bytes there. -/
def placed (pc : Byte) (bytes : List Byte) : State := { started.storeBytes pc.toNat bytes with pc := pc }

/-- Bytes at address 0, `x[0]` and `x[1]` given. -/
def two (bytes : List Byte) (x0 x1 : Byte) : State := ((placed 0 bytes).setReg 0 x0).setReg 1 x1

/-! ALU (95_test_vectors.md section 2.1). -/

theorem test_add_wraps : after (two [0xA0, 0, 1] 0xC8 0x64) (fun t => t.reg 0 == 0x2C && t.reg 1 == 0x64 && t.pc == 3 && t.fl == 0) = true := by decide
theorem test_add_to_stack_pointer : after (two [0xA0, 7, 0] 2 0) (fun t => t.reg 7 == 0xF6) = true := by decide
theorem test_mul_low_byte : after (two [0xA2, 0, 1] 0xFF 0xFF) (fun t => t.reg 0 == 0x01 && t.reg 1 == 0xFF && t.pc == 3 && t.fl == 0) = true := by decide
theorem test_mul_same_register : after (two [0xA2, 1, 1] 0 3) (fun t => t.reg 1 == 9) = true := by decide
theorem test_mod_remainder : after (two [0xA4, 0, 1] 0x11 0x05) (fun t => t.reg 0 == 0x02 && t.reg 1 == 0x05 && t.pc == 3 && t.fl == 0) = true := by decide
theorem test_mod_zero_halts : after (two [0xA4, 0, 1] 7 0) (fun t => t.run == .halted && t.reg 0 == 7 && t.pc == 3 && t.out == []) = true := by decide
theorem test_and : after (two [0xA8, 0, 1] 0xCC 0xAA) (fun t => t.reg 0 == 0x88 && t.reg 1 == 0xAA && t.pc == 3 && t.fl == 0) = true := by decide
theorem test_or : after (two [0xAA, 0, 1] 0xCC 0xAA) (fun t => t.reg 0 == 0xEE && t.reg 1 == 0xAA && t.pc == 3 && t.fl == 0) = true := by decide
theorem test_xor : after (two [0xAB, 0, 1] 0xCC 0xAA) (fun t => t.reg 0 == 0x66 && t.reg 1 == 0xAA && t.pc == 3 && t.fl == 0) = true := by decide
theorem test_not : after (two [0x69, 0] 0x0F 0) (fun t => t.reg 0 == 0xF0 && t.pc == 2) = true := by decide
theorem test_shl : after (two [0xAC, 0, 1] 0x0F 0x04) (fun t => t.reg 0 == 0xF0 && t.reg 1 == 0x04 && t.pc == 3 && t.fl == 0) = true := by decide
theorem test_shl_amount_not_masked : after (two [0xAC, 0, 1] 0x01 0x08) (fun t => t.reg 0 == 0x00 && t.reg 1 == 0x08 && t.pc == 3 && t.fl == 0) = true := by decide
theorem test_shr_zero_fill : after (two [0xAD, 0, 1] 0x80 0x07) (fun t => t.reg 0 == 0x01 && t.reg 1 == 0x07 && t.pc == 3 && t.fl == 0) = true := by decide
theorem test_shr_amount_not_masked : after (two [0xAD, 0, 1] 0xFF 0xFF) (fun t => t.reg 0 == 0x00 && t.reg 1 == 0xFF && t.pc == 3 && t.fl == 0) = true := by decide
theorem test_cmp_unsigned : after (two [0xA7, 0, 1] 0xFF 0x01) (fun t => t.fl == 0x02 && t.reg 0 == 0xFF && t.pc == 3) = true := by decide
theorem test_cmp_overwrites_fl : after ((two [0xA7, 0, 1] 5 5).setFl 0x04) (fun t => t.fl == 0x01) = true := by decide

/-! Jumps (section 2.3): the jump to `x[2]` = 0x20 at address 0x10, for FL = E, G, L and reset. -/

/-- The PC after the step of the jump, for FL = 1, 2, 4, 0. -/
def jumpRow (op : Byte) : List (Option Byte) :=
  [0x01, 0x02, 0x04, 0x00].map fun fl =>
    match step (((placed 0x10 [op, 2]).setReg 2 0x20).setFl fl) with
    | .next t => some t.pc
    | .fault _ | .refused _ => none

theorem test_jmp : jumpRow 0x54 = [some 0x20, some 0x20, some 0x20, some 0x20] := by decide
theorem test_jeq : jumpRow 0x55 = [some 0x20, some 0x12, some 0x12, some 0x12] := by decide
theorem test_jne : jumpRow 0x56 = [some 0x12, some 0x20, some 0x20, some 0x20] := by decide
theorem test_jgt : jumpRow 0x57 = [some 0x12, some 0x20, some 0x12, some 0x12] := by decide
theorem test_jlt : jumpRow 0x58 = [some 0x12, some 0x12, some 0x20, some 0x12] := by decide
theorem test_jle : jumpRow 0x59 = [some 0x20, some 0x12, some 0x20, some 0x12] := by decide
theorem test_jge : jumpRow 0x5A = [some 0x20, some 0x20, some 0x12, some 0x12] := by decide
theorem test_jeq_not_taken_wraps : after ((placed 0xFF [0x55, 2]).setFl 0x02) (fun t => t.pc == 0x01) = true := by decide
theorem test_jump_index_checked_when_not_taken :
    after ((placed 0 [0x55, 8]).setFl 0x02) (fun t => t.run == .faulted && t.fault == ⟨2, 0, 0x55, 8⟩) = true := by decide

/-! Stack and call (section 2.4). -/

theorem test_push : after (two [0x45, 0] 5 0) (fun t => t.reg 7 == 0xF3 && t.readByte 0xF3 == 5 && t.pc == 2) = true := by decide
theorem test_push_r7_stores_decremented : after (placed 0 [0x45, 7]) (fun t => t.reg 7 == 0xF3 && t.readByte 0xF3 == 0xF3) = true := by
  decide
theorem test_pop_wraps :
    after ((placed 0 [0x46, 1]).setReg 7 0xFF |>.writeByte 0xFF 0x77) (fun t => t.reg 1 == 0x77 && t.reg 7 == 0 && t.pc == 2) = true := by
  decide
theorem test_pop_r7 : after ((placed 0 [0x46, 7]).writeByte 0xF4 0x30) (fun t => t.reg 7 == 0x31) = true := by decide
theorem test_call_return_address_wraps :
    after ((placed 0xFE [0x50, 1]).setReg 1 0x40) (fun t => t.reg 7 == 0xF3 && t.readByte 0xF3 == 0 && t.pc == 0x40) = true := by decide
theorem test_call_r7 : after (placed 0 [0x50, 7]) (fun t => t.pc == 0xF3 && t.readByte 0xF3 == 2) = true := by decide
theorem test_ret :
    after ((placed 0x0E [0x11]).setReg 7 0xF3 |>.writeByte 0xF3 8) (fun t => t.pc == 8 && t.reg 7 == 0xF4) = true := by decide

/-! Data movement, the instruction cycle and the faults (sections 2.5, 2.2). -/

theorem test_ldi_r7_any_immediate : after (placed 0 [0x82, 7, 0xFF]) (fun t => t.reg 7 == 0xFF && t.pc == 3) = true := by decide
theorem test_ldi_fetched_across_top :
    after (placed 0xFE [0x82, 1, 0x82]) (fun t => t.reg 1 == 0x82 && t.pc == 1) = true := by decide
theorem test_prn : after (two [0x47, 0] 0x48 0) (fun t => t.out == [⟨.dec, 0x48⟩] && t.pc == 2) = true := by decide
theorem test_pra : after (two [0x48, 0] 0x41 0) (fun t => t.out == [⟨.chr, 0x41⟩] && t.pc == 2) = true := by decide
theorem test_st : after (two [0x84, 0, 1] 0x80 0x2A) (fun t => t.readByte 0x80 == 0x2A && t.reg 0 == 0x80 && t.pc == 3) = true := by
  decide
theorem test_st_over_itself :
    after ((placed 0x10 [0x84, 0, 1]).setReg 0 0x10 |>.setReg 1 1) (fun t => t.readByte 0x10 == 1 && t.pc == 0x13 && t.run == .running) = true := by
  decide
theorem test_hlt : after (placed 0x0B [0x01]) (fun t => t.run == .halted && t.pc == 0x0C) = true := by decide
theorem test_hlt_operands_unchecked : after (placed 0 [0x01, 0xFF, 0xFF]) (fun t => t.run == .halted) = true := by decide
theorem test_zero_faults : after started (fun t => t.run == .faulted && t.fault == ⟨1, 0, 0, 0⟩ && t.pc == 0) = true := by decide
theorem test_index_fault_before_mod_halt : after (placed 0 [0xA4, 0, 9]) (fun t => t.fault == ⟨2, 0, 0xA4, 9⟩ && t.run == .faulted) = true := by
  decide
theorem test_bad_push_has_no_effect :
    after (placed 0 [0x45, 9]) (fun t => t.fault == ⟨2, 0, 0x45, 9⟩ && t.reg 7 == 0xF4 && t.readByte 0xF3 == 0) = true := by decide
theorem test_withFetchWord_runs_ldi : after (State.reset.withFetchWord 24 0x080082) (fun t => t.reg 0 == 8 && t.pc == 3) = true := by decide
theorem test_render : renderTrace [⟨.dec, 0x48⟩, ⟨.dec, 0⟩, ⟨.dec, 0xFF⟩, ⟨.chr, 0x41⟩] = [55, 50, 10, 48, 10, 50, 53, 53, 10, 65] := by decide
theorem test_reset_is_not_yet_stepping : step State.reset = .fault .notStarted := rfl
theorem test_load_and_start_before_the_run :
    ((State.reset.host (.load 1 5)).bind (·.host .start)) = some { started with mem := [(1, 5)] } := by decide
theorem test_no_load_while_running : started.host (.load 1 5) = none := by decide
theorem test_no_start_of_a_halted_machine : started.halt.host .start = none := by decide
theorem test_launch_of_two_bytes : launch [0x01, 0x02] = some { started with mem := [(0, 1), (1, 2)] } := by decide
theorem test_status_hides_record_while_running : started.status = (.running, .zero) := by decide
theorem test_inspect_not_while_running : started.inspect = none := by decide

/-! ## Witnesses: a state and operands that meet the hypotheses of each statement -/

/-- The step is taken and its result satisfies `p`. -/
theorem next_of_after {s : State} {p : State → Bool} (h : after s p = true) : ∃ t, step s = .next t ∧ p t = true := by
  unfold after at h
  cases hs : step s with
  | next t => rw [hs] at h; exact ⟨t, rfl, h⟩
  | fault r => rw [hs] at h; cases h
  | refused r => rw [hs] at h; cases h

theorem witness_StepRunsDecodedInstruction_across_top :
    (placed 0xFF [0x69, 3]).run = .running ∧
    decode ((placed 0xFF [0x69, 3]).readByte 0xFF) ((placed 0xFF [0x69, 3]).readByte ((0xFF + 1) % 256))
      ((placed 0xFF [0x69, 3]).readByte ((0xFF + 2) % 256)) = .ok (.not 3) := by decide

theorem witness_StepTakenExactlyWhileRunning_running : started.run = .running := rfl
theorem witness_StepTakenExactlyWhileRunning_notStarted : State.reset.run = .notStarted := rfl
theorem witness_StepTakenExactlyWhileRunning_halted : State.reset.halt.run = .halted := rfl
theorem witness_StepTakenExactlyWhileRunning_faulted : (State.reset.raise .unsupportedInstruction).run = .faulted := rfl

theorem witness_RunLeavesRunningOnlyByHaltOrFatal_hlt :
    ∃ t, step (placed 0 [0x01]) = .next t ∧ (t.run == .halted) = true := next_of_after (by decide)
theorem witness_RunLeavesRunningOnlyByHaltOrFatal_mod :
    (∃ t, step (two [0xA4, 0, 1] 7 0) = .next t ∧ (t.run == .halted) = true) ∧
    (two [0xA4, 0, 1] 7 0).nextInstr = .ok (.mod (regByte 0) (regByte 1)) ∧ (two [0xA4, 0, 1] 7 0).reg 1 = 0 :=
  ⟨next_of_after (by decide), by decide, by decide⟩
theorem witness_RunLeavesRunningOnlyByHaltOrFatal_opcode :
    ∃ t, step started = .next t ∧ (t.run == .faulted) = true := next_of_after (by decide)
theorem witness_RunLeavesRunningOnlyByHaltOrFatal_index :
    (∃ t, step (placed 0 [0x45, 8]) = .next t ∧ (t.run == .faulted) = true) ∧ (Instr.push 8).badOperand = some 8 :=
  ⟨next_of_after (by decide), by decide⟩

theorem witness_UnsupportedOpcodeFaults_state :
    started.run = .running ∧ ∀ m, opcodeOf m ≠ started.readByte started.pc.toNat :=
  ⟨rfl, fun m => by cases m <;> decide⟩
theorem witness_UnsupportedOpcodeFaults_bytes : 0xC0 ≤ (0xC0 : Byte).toNat ∧ 0xC0 ≤ (0xFF : Byte).toNat := by decide

theorem witness_BadRegisterOperandFaults_least : (Instr.ldi 8 0).badOperand = some 8 := by decide
theorem witness_BadRegisterOperandFaults_greatest : (Instr.add 7 255).badOperand = some 255 := by decide
theorem witness_OpaIsCheckedBeforeOpb_opa :
    Instr.mod ∈ [Instr.st, Instr.add, Instr.mul, Instr.mod, Instr.cmp, Instr.and, Instr.or, Instr.xor, Instr.shl, Instr.shr] ∧
    7 < (8 : Byte).toNat := ⟨by simp, by decide⟩
theorem witness_OpaIsCheckedBeforeOpb_opb : (7 : Byte).toNat ≤ 7 ∧ 7 < (8 : Byte).toNat := by decide

theorem witness_FatalStepIsPrecise : ∃ t, step started = .next t ∧ (t.run == .faulted) = true := next_of_after (by decide)
theorem witness_FatalStepIsPrecise_index :
    ∃ t, step (placed 0 [0x45, 8]) = .next t ∧ (t.run == .faulted && t.fault.code == 2) = true := next_of_after (by decide)
theorem witness_AutoAdvanceUsesLatchedOpcode :
    ∃ t, step (placed 0xFF [0x82, 0, 8]) = .next t ∧ (t.run != .faulted && !t.ir.getLsbD 4) = true := next_of_after (by decide)

/-- The text of 30_encoding.md R61's first examples. -/
theorem test_text_of_scenario :
    programText [.ldi 0 8, .mul 0 1, .hlt] = "LDI R0,8; MUL R0,R1; HLT" := by decide

theorem witness_LaunchRegistersAndMemory_longest : (List.replicate 256 (0x01 : Byte)).length ≤ 256 :=
  Nat.le_of_eq List.length_replicate
theorem witness_LaunchControlState_launches : ∃ s, launch [0x01] = some s := ⟨_, rfl⟩
theorem witness_LaunchControlState_too_long : 256 < (List.replicate 257 (0x01 : Byte)).length := by
  rw [List.length_replicate]; decide
theorem witness_LaunchMeetsInvariant : ∃ s, launch [] = some s := ⟨_, rfl⟩

theorem started_inv : started.Inv := ⟨rfl, .inl rfl, ⟨fun _ => rfl, fun h => by cases h⟩, fun h => by cases h⟩
theorem witness_StepKeepsInvariant : started.Inv ∧ ∃ t, step started = .next t ∧ (t.run == .faulted) = true :=
  ⟨started_inv, next_of_after (by decide)⟩

theorem witness_HostMovesOnlyAtTheirTime_before_start : State.reset.run = .notStarted ∧ State.reset.mem.wf = true := by decide
theorem witness_HostMovesOnlyAtTheirTime_running :
    started.run ≠ .notStarted ∧ started.host .reset = some State.reset := by decide
theorem witness_HostMovesOnlyAtTheirTime_stopped :
    started.halt.run = .halted ∧ (started.raise .unsupportedInstruction).run = .faulted ∧
    Evolves started.halt 1 State.reset := ⟨rfl, rfl, .host .reset (.here _) rfl⟩
theorem witness_EvolutionsKeepInvariant : started.Inv ∧ Evolves State.reset 1 started :=
  ⟨started_inv, .host .start (.here _) rfl⟩
theorem witness_EveryRunTerminatesFaultsOrHangs : started.run ≠ .notStarted := by decide

theorem witness_OperandBytesNeverSelectInstruction_row : opcodeOf .shr = 0xAD := rfl
theorem witness_OperandBytesNeverSelectInstruction_none : ∀ m, opcodeOf m ≠ 0xFF := fun m => by cases m <;> decide
theorem witness_UnusedOperandBytesIgnored_none : (0x11 : Byte).toNat / 64 = 0 := by decide
theorem witness_UnusedOperandBytesIgnored_one : (0x45 : Byte).toNat / 64 = 1 := by decide

theorem witness_ModRemainderOrSilentHalt_divides : (two [] 0 1).reg 1 ≠ 0 := by decide
theorem witness_ModRemainderOrSilentHalt_halts : State.reset.reg 1 = 0 := by decide
theorem witness_CompareSetsExactlyOneFlag_equal : ((two [] 255 255).reg 0).toNat = ((two [] 255 255).reg 1).toNat := by decide
theorem witness_CompareSetsExactlyOneFlag_greater : ((two [] 255 254).reg 0).toNat > ((two [] 255 254).reg 1).toNat := by decide
theorem witness_CompareSetsExactlyOneFlag_less : ((two [] 0 255).reg 0).toNat < ((two [] 0 255).reg 1).toNat := by decide
theorem witness_OnlyCompareChangesFlags :
    (∃ t, step (two [0xA7, 0, 1] 0 255) = .next t ∧ (t.fl != (two [0xA7, 0, 1] 0 255).fl) = true) ∧ flagsLegal (two [0xA7, 0, 1] 0 255).fl :=
  ⟨next_of_after (by decide), .inl (by decide)⟩
/-- Every jump of the list is met by the state with FL = L: here JLE, taken, and JGE, not taken. -/
theorem witness_JumpsFollowFlagPredicates :
    let s := State.reset.setFl 0x04
    let rows := [(Instr.jmp, true),
       (Instr.jeq, s.fl.getLsbD 0), (Instr.jne, !s.fl.getLsbD 0),
       (Instr.jgt, s.fl.getLsbD 1), (Instr.jlt, s.fl.getLsbD 2),
       (Instr.jge, s.fl.getLsbD 1 || s.fl.getLsbD 0), (Instr.jle, s.fl.getLsbD 2 || s.fl.getLsbD 0)]
    (Instr.jle, true) ∈ rows ∧ (Instr.jge, false) ∈ rows :=
  ⟨.tail _ (.tail _ (.tail _ (.tail _ (.tail _ (.tail _ (.head _)))))), .tail _ (.tail _ (.tail _ (.tail _ (.tail _ (.head _)))))⟩
theorem witness_OutputInstructionsAppendOneRecord :
    (Instr.pra, OutKind.chr) ∈ [(Instr.prn, OutKind.dec), (Instr.pra, OutKind.chr)] := by simp

theorem witness_PushWritesBelowStackTop : (State.reset.setReg 7 0).mem.wf = true := by decide
theorem witness_PopReadsStackTop_other : (6 : Reg) ≠ 7 := by decide
theorem witness_CallPushesReturnAddress : (placed 0xFE [0x50, 7]).mem.wf = true := by decide
theorem witness_PushPopRoundTrip : (State.reset.setReg 7 0).mem.wf = true ∧ (0 : Reg) ≠ 7 ∧ (6 : Reg) ≠ 7 := by decide
theorem witness_CallReturnRoundTrip :
    (placed 0 [0x50, 1]).mem.wf = true ∧
    ∃ t, exec (.call (regByte 1)) (placed 0 [0x50, 1]) = .next t ∧ t.reg 7 = 0xF3 ∧ t.readByte 0xF3 = 2 :=
  ⟨by decide, _, rfl, by decide, by decide⟩
theorem witness_StoreWritesOneCell : (two [0x84, 0, 1] 0xFF 1).mem.wf = true := by decide
theorem witness_StoreSeenByNextFetch :
    (two [0x84, 0, 1] 3 1).mem.wf = true ∧ (two [0x84, 0, 1] 3 1).run = .running ∧
    (two [0x84, 0, 1] 3 1).nextInstr = .ok (.st (regByte 0) (regByte 1)) ∧ (two [0x84, 0, 1] 3 1).pc + 3 = (two [0x84, 0, 1] 3 1).reg 0 := by
  decide
theorem witness_RegistersWrittenOnlyAsListed :
    (∃ t, exec (.pop (regByte 0)) State.reset = .next t) ∧ (1 : Reg) ∉ regsWritten (.pop (regByte 0)) := ⟨⟨_, rfl⟩, by decide⟩
theorem witness_MemoryWrittenOnlyAsListed :
    State.reset.mem.wf = true ∧ (∃ t, exec (.push (regByte 0)) State.reset = .next t) ∧
    cellWritten State.reset (.push (regByte 0)) = some 0xF3 := ⟨rfl, ⟨_, rfl⟩, by decide⟩
theorem witness_OutputIsAppendOnlyAndNeverRead :
    ∃ t, step (two [0x47, 0] 0x48 0) = .next t ∧ (t.out.length == 1) = true := next_of_after (by decide)

end Sys2Proof.Tests
end

section
/-! The launch state: registers, PC and memory as the host's load leaves them (10_state.md R24 to R26). -/

namespace Sys2Proof.Machine

/-- Memory reads 0x00 everywhere after reset (R26). -/
@[simp] theorem State.readByte_reset (a : Nat) : State.reset.readByte a = 0 := rfl

/-- Every register after reset: the stack pointer 0xF4, the others 0 (R24). -/
theorem State.reg_reset (r : Reg) : State.reset.reg r = if r = 7 then 0xF4 else 0 := by
  revert r; decide

/-- A cell below the first address of a store that does not wrap keeps its byte. -/
theorem State.readByte_storeBytes_below {s : State} (h : s.mem.wf = true) {addr a : Nat} {vs : List Byte}
    (hfit : addr + vs.length ≤ 256) (ha : a < addr) : (s.storeBytes addr vs).readByte a = s.readByte a := by
  induction vs generalizing s addr with
  | nil => rfl
  | cons v vs ih =>
    rw [List.length_cons] at hfit
    rw [State.storeBytes, ih (Memory.write_wf h addr v) (by omega) (by omega), State.readByte_writeByte h,
      if_neg (by omega)]

/-- A store that does not wrap puts its bytes from its first address on; the cells after them keep theirs. -/
theorem State.readByte_storeBytes_add {s : State} (h : s.mem.wf = true) {addr k : Nat} {vs : List Byte}
    (hfit : addr + vs.length ≤ 256) (hk : addr + k < 256) :
    (s.storeBytes addr vs).readByte (addr + k) = vs[k]?.getD (s.readByte (addr + k)) := by
  induction vs generalizing s addr k with
  | nil => rfl
  | cons v vs ih =>
    rw [List.length_cons] at hfit
    have hw : (s.writeByte addr v).mem.wf = true := Memory.write_wf h addr v
    rw [State.storeBytes]
    cases k with
    | zero =>
      rw [State.readByte_storeBytes_below hw (by omega) (by omega), State.readByte_writeByte h]
      simp
    | succ k =>
      have hcell : addr + (k + 1) = addr + 1 + k := by omega
      rw [hcell, ih hw (by omega) (by omega), State.readByte_writeByte h, if_neg (by omega), List.getElem?_cons_succ]

/-- The memory of a launch: the image from address 0 on, zeros after it (R26, R171). -/
theorem State.readByte_storeBytes_reset {image : List Byte} (hfit : image.length ≤ 256) {a : Nat} (ha : a < 256) :
    (State.reset.storeBytes 0 image).readByte a = image[a]?.getD 0 := by
  have hread := State.readByte_storeBytes_add (s := State.reset) (addr := 0) (k := a) (vs := image) rfl (by omega) (by omega)
  simpa using hread

/-- Settles O14: a launch is reset with the image stored and the run state set (`launch_eq_some`), so registers and PC are those
of reset, and the first fetch reads cell 0 as any other read does. -/
theorem launchRegistersAndMemory : Obligations.LaunchRegistersAndMemory := by
  refine ⟨State.readByte_reset, fun image hfit => ?_⟩
  have hmem := fun a (ha : a < 256) => State.readByte_storeBytes_reset hfit ha
  exact ⟨_, launch_eq_some.mpr ⟨hfit, rfl⟩, State.reg_reset, rfl, hmem 0 (by decide), hmem⟩

end Sys2Proof.Machine
end

section
/-! The encoding: what the opcode byte alone says of an instruction (30_encoding.md R53, R54, R56). -/

namespace Sys2Proof

/-- No two rows share an opcode byte, since the lookup answers the row (R56). -/
theorem opcodeOf_injective : Function.Injective opcodeOf := fun m m' h => by
  have hrow : mnemonicOf (opcodeOf m') = some m := mnemonicOf_eq_some.mpr h
  rw [mnemonicOf_opcodeOf] at hrow
  exact (Option.some.inj hrow).symm

/-- Decoding a row's opcode answers the row's instruction, whatever the operand bytes (R56). -/
@[simp] theorem decode_opcodeOf (m : Mnemonic) (opa opb : Byte) : decode (opcodeOf m) opa opb = .ok (m.instr opa opb) := by
  rw [decode, mnemonicOf_opcodeOf]

/-- Decoding a byte that is no row's opcode rejects it by name, whatever the operand bytes (R57). -/
theorem decode_eq_unsupportedOpcode {ir : Byte} (h : ∀ m, opcodeOf m ≠ ir) (opa opb : Byte) :
    decode ir opa opb = .error (.unsupportedOpcode ir) := by
  rw [decode, mnemonicOf_eq_none.mpr h]

/-- Settles O4: the decoder looks up the opcode byte alone, and the lookup tells the rows apart. -/
theorem operandBytesNeverSelectInstruction : Obligations.OperandBytesNeverSelectInstruction := by
  refine ⟨opcodeOf_injective, fun ir opa opb => ⟨?row, fun hnone => decode_eq_unsupportedOpcode hnone opa opb⟩⟩
  case row =>
    rintro m rfl
    exact decode_opcodeOf m opa opb

/-- An instruction has as many operand bytes as its row's format says (R51). -/
theorem Instr.length_operandBytes (i : Instr) : i.operandBytes.length = i.mnemonic.format.operandCount := by
  cases i <;> rfl

/-- Bits 7:6 of a row's opcode count the operand bytes of its format (R53). -/
theorem opcodeOf_div_64 (m : Mnemonic) : (opcodeOf m).toNat / 64 = m.format.operandCount := by
  cases m <;> decide

/-- Bit 4 of a row's opcode says whether the instruction writes PC itself (R54). -/
theorem opcodeOf_bit4 (m : Mnemonic) : (opcodeOf m).getLsbD 4 = m.selfManagesPc := by
  cases m <;> decide

/-- The instructions that write PC themselves are the nine of R54's list. -/
theorem Mnemonic.selfManagesPc_iff (m : Mnemonic) :
    m.selfManagesPc = true ↔ m ∈ [Mnemonic.jmp, .jeq, .jne, .jgt, .jlt, .jge, .jle, .call, .ret] := by
  cases m <;> decide

/-- Settles O3: both fields of the opcode are facts about the row, and an instruction has its row's operand bytes. -/
theorem opcodeBitsCountOperandsAndMarkPcWriters : Obligations.OpcodeBitsCountOperandsAndMarkPcWriters := by
  intro i
  rw [opcodeOf_div_64, opcodeOf_bit4, Instr.length_operandBytes]
  exact ⟨rfl, i.mnemonic.selfManagesPc_iff⟩

end Sys2Proof
end

section
/-! The instruction cycle: a running machine fetches the three bytes at PC, modulo 256, and executes what they decode to
(40_instruction_cycle.md R70, R76). -/

namespace Sys2Proof.Machine

/-- Addresses count modulo 256 (R33, R36). -/
@[simp] theorem State.readByte_mod_256 (s : State) (addr : Nat) : s.readByte (addr % 256) = s.readByte addr :=
  congrArg s.mem.get (Nat.mod_mod addr 256)

/-- A running machine whose fetched bytes decode executes the instruction on the fetched state (R76). -/
theorem step_eq_exec_fetch {s : State} {i : Instr} (hrun : s.run = .running) (hi : s.nextInstr = .ok i) :
    step s = exec i s.fetch := by
  simp only [step, State.stopped, hrun, State.fetch_latched, hi]

/-- Settles O6: with the addresses taken modulo 256 the latched bytes are those of `fetch`, which changes nothing else. -/
theorem stepRunsDecodedInstruction : Obligations.StepRunsDecodedInstruction := by
  intro s i hrun hi
  rw [State.readByte_mod_256, State.readByte_mod_256] at hi ⊢
  exact step_eq_exec_fetch hrun hi

end Sys2Proof.Machine
end

section
/-! The ALU: the value each operation writes (41_alu.md R90, R91, R93 to R96), and what an instruction leaves that writes one
register and is advanced by the cycle. -/

namespace Sys2Proof.Machine

@[simp] theorem toNat_aluAdd (x y : Byte) : (aluAdd x y).toNat = (x.toNat + y.toNat) % 256 := BitVec.toNat_ofNat ..

@[simp] theorem toNat_aluMul (x y : Byte) : (aluMul x y).toNat = (x.toNat * y.toNat) % 256 := BitVec.toNat_ofNat ..

@[simp] theorem getLsbD_aluAnd (x y : Byte) (k : Nat) : (aluAnd x y).getLsbD k = (x.getLsbD k && y.getLsbD k) :=
  BitVec.getLsbD_and

@[simp] theorem getLsbD_aluOr (x y : Byte) (k : Nat) : (aluOr x y).getLsbD k = (x.getLsbD k || y.getLsbD k) :=
  BitVec.getLsbD_or

@[simp] theorem getLsbD_aluXor (x y : Byte) (k : Nat) : (aluXor x y).getLsbD k = (x.getLsbD k ^^ y.getLsbD k) :=
  BitVec.getLsbD_xor

@[simp] theorem toNat_aluNot (x : Byte) : (aluNot x).toNat = 255 - x.toNat := BitVec.toNat_not

/-- The advance moves PC past the opcode and the operands in one sum (40_instruction_cycle.md R75). -/
theorem State.advance_pc_eq_add (s : State) (n : Nat) : (s.advance n).pc = s.pc + BitVec.ofNat 8 (1 + n) := by
  rw [State.advance_pc, BitVec.add_assoc, BitVec.ofNat_add]
  rfl

/-- Writing one register and advancing changes that register and PC alone. -/
theorem State.onlyRegsWritten_setReg_advance (s : State) (r : Reg) (v : Byte) (n : Nat) :
    OnlyRegsWritten [r] s ((s.setReg r v).advance n) := by
  refine ⟨?regs, rfl, fun _ => rfl, ⟨rfl, rfl⟩, ⟨rfl, rfl, rfl⟩, rfl⟩
  case regs =>
    intro q hq
    rw [State.reg_advance, State.reg_setReg_ne (List.ne_of_not_mem_cons hq)]

/-- What is left by an instruction that writes one register and has `n` operand bytes: the value written, PC past the instruction
and all else as it was. -/
theorem exec_writes_reg {i : Instr} {s : State} {r : Reg} {v : Byte} {n : Nat}
    (hexec : exec i s = .next ((s.setReg r v).advance n)) :
    ∃ t, exec i s = .next t ∧ t.reg r = v ∧ t.pc = s.pc + BitVec.ofNat 8 (1 + n) ∧ OnlyRegsWritten [r] s t := by
  refine ⟨_, hexec, ?value, State.advance_pc_eq_add _ n, State.onlyRegsWritten_setReg_advance s r v n⟩
  case value => rw [State.reg_advance, State.reg_setReg_same]

/-- Settles O20: ADD and MUL write one register and are advanced, and what they write is the sum and the product modulo 256. -/
theorem addAndMulWrapModulo256 : Obligations.AddAndMulWrapModulo256 := fun s a b =>
  ⟨(exec_writes_reg (exec_add a b s)).imp fun _ ⟨hnext, hreg, hrest⟩ => ⟨hnext, hreg ▸ toNat_aluAdd _ _, hrest⟩,
   (exec_writes_reg (exec_mul a b s)).imp fun _ ⟨hnext, hreg, hrest⟩ => ⟨hnext, hreg ▸ toNat_aluMul _ _, hrest⟩⟩

/-- Settles O21: each of the four writes one register and is advanced, and what it writes is known bit by bit, or for NOT as a
number. -/
theorem bitwiseResults : Obligations.BitwiseResults := fun s a b =>
  ⟨(exec_writes_reg (exec_and a b s)).imp fun _ ⟨hnext, hreg, hrest⟩ => ⟨hnext, hreg ▸ getLsbD_aluAnd _ _, hrest⟩,
   (exec_writes_reg (exec_or a b s)).imp fun _ ⟨hnext, hreg, hrest⟩ => ⟨hnext, hreg ▸ getLsbD_aluOr _ _, hrest⟩,
   (exec_writes_reg (exec_xor a b s)).imp fun _ ⟨hnext, hreg, hrest⟩ => ⟨hnext, hreg ▸ getLsbD_aluXor _ _, hrest⟩,
   (exec_writes_reg (exec_not a s)).imp fun _ ⟨hnext, hreg, hrest⟩ => ⟨hnext, hreg ▸ toNat_aluNot _, hrest⟩⟩

end Sys2Proof.Machine
end

section
/-! The jumps: PC goes to the whole register when the predicate of FL holds, else past the jump (42_jumps.md R110 to R117). -/

namespace Sys2Proof.Machine

/-- Writing PC changes nothing else. -/
theorem State.onlyRegsWritten_setPc (s : State) (v : Byte) : OnlyRegsWritten [] s (s.setPc v) :=
  ⟨fun _ _ => rfl, rfl, fun _ => rfl, ⟨rfl, rfl⟩, ⟨rfl, rfl, rfl⟩, rfl⟩

/-- The PC after a jump, as a number: the whole target, or the address past the jump modulo 256 (R118, R119). -/
theorem toNat_jumpPc (taken : Bool) (target pc : Byte) :
    (if taken then target else pc + 2).toNat = if taken = true then target.toNat else (pc.toNat + 2) % 256 := by
  cases taken with
  | true => rfl
  | false => exact BitVec.toNat_add pc 2

/-- What is left by an instruction whose whole effect is a jump through `a` when `taken`: PC as R118 and R119 say, all else as it was. -/
theorem exec_jumps {i : Instr} {s : State} {a : Reg} {taken : Bool}
    (hexec : exec i s = .next (s.setPc (if taken then s.reg a else s.pc + 2))) :
    ∃ t, exec i s = .next t ∧
      t.pc.toNat = (if taken = true then (s.reg a).toNat else (s.pc.toNat + 2) % 256) ∧ OnlyRegsWritten [] s t :=
  ⟨_, hexec, toNat_jumpPc taken (s.reg a) s.pc, State.onlyRegsWritten_setPc s _⟩

/-- Settles O26: each of the seven is a jump (`exec_jumps`) under its own predicate, JMP under the one that always holds, and each
predicate is the bit test of R117 the list names. -/
theorem jumpsFollowFlagPredicates : Obligations.JumpsFollowFlagPredicates := by
  intro s a j taken hmem
  simp only [List.mem_cons, List.not_mem_nil, or_false, Prod.mk.injEq] at hmem
  obtain ⟨rfl, rfl⟩ | ⟨rfl, rfl⟩ | ⟨rfl, rfl⟩ | ⟨rfl, rfl⟩ | ⟨rfl, rfl⟩ | ⟨rfl, rfl⟩ | ⟨rfl, rfl⟩ := hmem
  · exact exec_jumps (exec_jmp a s)
  · exact exec_jumps (exec_jeq a s)
  · exact exec_jumps (exec_jne a s)
  · exact exec_jumps (exec_jgt a s)
  · exact exec_jumps (exec_jlt a s)
  · exact exec_jumps (exec_jge a s)
  · exact exec_jumps (exec_jle a s)

end Sys2Proof.Machine
end

section
/-! Data movement and output: one register, one trace record or one memory cell is written, and the cycle advances PC
(44_data_movement.md R140 to R143). -/

namespace Sys2Proof.Machine

/-- Settles O33: LDI writes one register and is advanced, as the ALU instructions are (`exec_writes_reg`), and the value is the
immediate itself. -/
theorem loadImmediateResult : Obligations.LoadImmediateResult := fun s a imm8 =>
  exec_writes_reg (exec_ldi a imm8 s)

/-- What is left by an instruction that appends one record and has one operand byte: the longer trace, PC past the instruction and
all else as it was. -/
theorem exec_emits {i : Instr} {s : State} {kind : OutKind} {v : Byte}
    (hexec : exec i s = .next ((s.emit kind v).advance 1)) :
    ∃ t, exec i s = .next t ∧ t.out = s.out ++ [⟨kind, v⟩] ∧ t.pc = s.pc + 2 ∧
      SameRegs s t ∧ t.fl = s.fl ∧ SameMemory s t ∧ SameRun s t ∧ SameLatches s t :=
  ⟨_, hexec, rfl, State.advance_pc_eq_add _ 1, fun _ => rfl, rfl, fun _ => rfl, ⟨rfl, rfl⟩, ⟨rfl, rfl, rfl⟩⟩

/-- Settles O34: each of the two appends one record (`exec_emits`), of the kind the list pairs it with. -/
theorem outputInstructionsAppendOneRecord : Obligations.OutputInstructionsAppendOneRecord := by
  intro s a j kind hmem
  simp only [List.mem_cons, List.not_mem_nil, or_false, Prod.mk.injEq] at hmem
  obtain ⟨rfl, rfl⟩ | ⟨rfl, rfl⟩ := hmem
  · exact exec_emits (exec_prn a s)
  · exact exec_emits (exec_pra a s)

/-- The cell a byte addresses reads as what was stored there (20_memory.md R34). -/
theorem State.readByte_writeByte_same {s : State} (h : s.mem.wf = true) (cell v : Byte) :
    (s.writeByte cell.toNat v).readByte cell.toNat = v := by
  rw [State.readByte_writeByte h, if_pos rfl]

/-- Storing a byte leaves every other cell as it was (20_memory.md R34). -/
theorem State.sameMemoryExcept_writeByte {s : State} (h : s.mem.wf = true) (cell v : Byte) :
    SameMemoryExcept cell s (s.writeByte cell.toNat v) := by
  intro addr hne
  have hcell : cell.toNat % 256 = cell.toNat := Nat.mod_eq_of_lt cell.isLt
  rw [State.readByte_writeByte h, hcell, if_neg hne]

/-- Storing one byte and advancing changes that cell and PC alone. -/
theorem State.onlyRegsAndCellWritten_writeByte_advance {s : State} (h : s.mem.wf = true) (cell v : Byte) (n : Nat) :
    OnlyRegsAndCellWritten [] cell s ((s.writeByte cell.toNat v).advance n) :=
  ⟨fun _ _ => rfl, rfl, State.sameMemoryExcept_writeByte h cell v, ⟨rfl, rfl⟩, ⟨rfl, rfl, rfl⟩, rfl⟩

/-- Settles O35: ST stores one byte and is advanced; the canonical form makes the stored cell read as the byte and every other cell
as before. -/
theorem storeWritesOneCell : Obligations.StoreWritesOneCell := fun s a b hwf =>
  ⟨_, exec_st a b s, State.readByte_writeByte_same hwf (s.reg a) (s.reg b), State.advance_pc_eq_add _ 2,
    State.onlyRegsAndCellWritten_writeByte_advance hwf (s.reg a) (s.reg b) 2⟩

end Sys2Proof.Machine
end

section
/-! The encoding, both ways (30_encoding.md R50, R51, R55): an instruction is its row with the operand bytes its format keeps. -/

namespace Sys2Proof

/-- Of two operand bytes an instruction keeps as many as its row's format has, from opa on (R51). -/
theorem operandBytes_instr (m : Mnemonic) (a b : Byte) :
    (m.instr a b).operandBytes = [a, b].take m.format.operandCount := by
  cases m <;> rfl

/-- An instruction is its row with its operand bytes; the ones it does not have can be read as any byte. -/
theorem Instr.exists_eq_instr (i : Instr) : ∃ a b, i = i.mnemonic.instr a b := by
  cases i with
  | hlt | ret => exact ⟨0, 0, rfl⟩
  | push a | pop a | prn a | pra a | call a | jmp a | jeq a | jne a | jgt a | jlt a | jle a | jge a | not a => exact ⟨a, 0, rfl⟩
  | ldi a b | st a b | add a b | mul a b | mod a b | cmp a b | and a b | or a b | xor a b | shl a b | shr a b => exact ⟨a, b, rfl⟩

/-- The row and the operand bytes kept are all of an instruction. -/
theorem instr_congr {m : Mnemonic} {a b a' b' : Byte}
    (h : [a, b].take m.format.operandCount = [a', b'].take m.format.operandCount) : m.instr a b = m.instr a' b' := by
  cases m with
  | hlt | ret => rfl
  | push | pop | prn | pra | call | jmp | jeq | jne | jgt | jlt | jle | jge | not =>
    obtain ⟨rfl, -⟩ := List.cons.inj h
    rfl
  | ldi | st | add | mul | mod | cmp | and | or | xor | shl | shr =>
    obtain ⟨rfl, hb⟩ := List.cons.inj h
    obtain ⟨rfl, -⟩ := List.cons.inj hb
    rfl

/-- A format has no operand byte, one or two (R51). -/
theorem Format.operandCount_cases (f : Format) : f.operandCount = 0 ∨ f.operandCount = 1 ∨ f.operandCount = 2 := by
  cases f <;> decide

/-- What a byte list that begins with a row's opcode decodes to: the row with the operand bytes that follow, and the rest. -/
theorem decodeBytes_opcodeOf_cons {m : Mnemonic} {tail rest : List Byte} {i : Instr} :
    decodeBytes (opcodeOf m :: tail) = .ok (i, rest) ↔
      ∃ a b, i = m.instr a b ∧ tail = [a, b].take m.format.operandCount ++ rest := by
  rw [decodeBytes, mnemonicOf_opcodeOf]
  obtain hn | hn | hn := m.format.operandCount_cases
  · have hall (a b : Byte) : m.instr a b = m.instr 0 0 := instr_congr (by rw [hn]; rfl)
    simp [hn, hall, eq_comm]
  · have hall (a b : Byte) : m.instr a b = m.instr a 0 := instr_congr (by rw [hn]; rfl)
    cases tail <;> simp [hn, hall, eq_comm]
  · rcases tail with _ | ⟨a, _ | ⟨b, tail⟩⟩ <;> simp [hn, eq_comm]

/-- Settles O1: the first byte selects the row on both sides, and the row's format says how many bytes are its operands. -/
theorem decodeInvertsEncode : Obligations.DecodeInvertsEncode := by
  intro bs rest i
  obtain _ | ⟨ir, tail⟩ := bs
  · simp [decodeBytes, encode]
  cases hm : mnemonicOf ir with
  | none =>
    have hne : ir ≠ opcodeOf i.mnemonic := fun h => mnemonicOf_eq_none.mp hm _ h.symm
    simp [decodeBytes, hm, encode, hne]
  | some m =>
    obtain rfl := mnemonicOf_eq_some.mp hm
    rw [decodeBytes_opcodeOf_cons]
    constructor
    · rintro ⟨a, b, rfl, rfl⟩
      rw [encode, mnemonic_instr, operandBytes_instr, List.cons_append]
    · intro h
      rw [encode, List.cons_append] at h
      obtain ⟨hop, rfl⟩ := List.cons.inj h
      obtain rfl := opcodeOf_injective hop
      obtain ⟨a, b, hi⟩ := i.exists_eq_instr
      refine ⟨a, b, hi, ?_⟩
      rw [← operandBytes_instr, ← hi]

/-- Settles O5: bits 7:6 of a row's opcode count the operand bytes it keeps, and a byte of no row is rejected whatever follows. -/
theorem unusedOperandBytesIgnored : Obligations.UnusedOperandBytesIgnored := by
  intro ir a b a' b'
  cases hm : mnemonicOf ir with
  | none => simp only [decode, hm, implies_true, and_self]
  | some m =>
    obtain rfl := mnemonicOf_eq_some.mp hm
    rw [opcodeOf_div_64, decode_opcodeOf, decode_opcodeOf, decode_opcodeOf]
    exact ⟨fun hn => congrArg _ (instr_congr (by rw [hn]; rfl)), fun hn => congrArg _ (instr_congr (by rw [hn]; rfl))⟩

/-- Settles O2: each word is a row's opcode with that row's operands (`decode_opcodeOf`), and 0x00 is no row's opcode. -/
theorem writtenWordsDecode : Obligations.WrittenWordsDecode :=
  ⟨decode_opcodeOf .ldi 0 8, decode_opcodeOf .mul 0 1, decode_opcodeOf .not 3 0xFF, decode_opcodeOf .jge 2 0,
    decode_opcodeOf .call 1 0, decode_opcodeOf .ret 0 0, decode_opcodeOf .st 5 6,
    decode_eq_unsupportedOpcode (fun m => by cases m <;> decide) 0 0⟩

end Sys2Proof
end

section
/-! What executing an instruction can do, said once for all 26: InvalidRegisterIndex on the first register operand byte out of
range, or one of the effects of `Effect` (40_instruction_cycle.md R72, R73). -/

namespace Sys2Proof

/-- The byte that InvalidRegisterIndex reports is above 7 (30_encoding.md R59). -/
theorem Instr.lt_of_badOperand {i : Instr} {w : Byte} (h : i.badOperand = some w) : 7 < w.toNat := by
  simpa using List.find?_some h

/-- A register's operand byte is in range. -/
@[simp] theorem toNat_regByte_le (r : Reg) : (regByte r).toNat ≤ 7 := by
  have hval : (regByte r).toNat = r.val := Nat.mod_eq_of_lt (r.isLt.trans (by decide))
  omega

end Sys2Proof

namespace Sys2Proof.Machine

/-- The effect of an instruction whose register operands are in range, where `i` takes `s` to `t`: one constructor per kind of effect,
with what the rules of the state need to know of the instruction. -/
inductive Effect (s : State) : Instr → State → Prop where
  /-- NOT, LDI and the writing ALU operations. -/
  | writesReg {i : Instr} {r : Reg} (v : Byte) (listed : r ∈ regsWritten i) :
      Effect s i ((s.setReg r v).advance i.mnemonic.format.operandCount)
  | compares (r q : Reg) : Effect s (.cmp (regByte r) (regByte q)) ((s.setFl (compareFlags (s.reg r) (s.reg q))).advance 2)
  | stores (r q : Reg) : Effect s (.st (regByte r) (regByte q)) ((s.writeByte (s.reg r).toNat (s.reg q)).advance 2)
  /-- PRN and PRA. -/
  | emits {i : Instr} (kind : OutKind) (v : Byte) (one : i.mnemonic.format.operandCount = 1) : Effect s i ((s.emit kind v).advance 1)
  | halts : Effect s .hlt (s.halt.advance 0)
  | modHalts (r q : Reg) (zero : s.reg q = 0) : Effect s (.mod (regByte r) (regByte q)) (s.halt.advance 2)
  /-- The seven jumps. -/
  | jumps {i : Instr} (target : Byte) (self : i.mnemonic.selfManagesPc = true) : Effect s i (s.setPc target)
  | pushes (r : Reg) : Effect s (.push (regByte r)) ((s.decSp.setTop (s.decSp.reg r)).advance 1)
  | pops (r : Reg) : Effect s (.pop (regByte r)) ((s.setReg r s.top).incSp.advance 1)
  | calls (r : Reg) : Effect s (.call (regByte r)) ((s.decSp.setTop (s.pc + 2)).setPc (s.decSp.reg r))
  | returns : Effect s .ret (s.setPc s.top).incSp

/-- The two ways an instruction can go. -/
def FaultsOrTakesEffect (i : Instr) (s : State) : Prop :=
  (∃ w, i.badOperand = some w ∧ exec i s = .next (s.raise (.invalidRegisterIndex w))) ∨
  (i.badOperand = none ∧ ∃ t, exec i s = .next t ∧ Effect s i t)

/-- An instruction with one register operand takes its effect or reports that operand. -/
theorem faultsOrTakesEffect_of_withReg {j : Byte → Instr} {a : Byte} {s : State} {k : Reg → State}
    (hops : ∀ a, (j a).regOperands = [a]) (hexec : exec (j a) s = withReg a s k) (hk : ∀ r, Effect s (j (regByte r)) (k r)) :
    FaultsOrTakesEffect (j a) s := by
  rw [FaultsOrTakesEffect, hexec, Instr.badOperand, hops]
  obtain ⟨r, rfl, h⟩ | ⟨ha, h⟩ := withReg_cases a s k
  · exact .inr ⟨by simp, _, h, hk r⟩
  · exact .inl ⟨a, by simp [ha], h⟩

/-- An instruction with two register operands takes its effect or reports the first of them out of range, opa before opb (R72). -/
theorem faultsOrTakesEffect_of_withRegs {j : Byte → Byte → Instr} {a b : Byte} {s : State} {k : Reg → Reg → State}
    (hops : ∀ a b, (j a b).regOperands = [a, b]) (hexec : exec (j a b) s = withRegs a b s k)
    (hk : ∀ r q, Effect s (j (regByte r) (regByte q)) (k r q)) : FaultsOrTakesEffect (j a b) s := by
  rw [FaultsOrTakesEffect, hexec, Instr.badOperand, hops]
  obtain ⟨r, q, rfl, rfl, h⟩ | ⟨ha, h⟩ | ⟨r, rfl, hb, h⟩ := withRegs_cases a b s k
  · exact .inr ⟨by simp, _, h, hk r q⟩
  · exact .inl ⟨a, by simp [ha], h⟩
  · exact .inl ⟨b, by simp [hb], h⟩

theorem mem_toList_asReg_regByte (r : Reg) : r ∈ (asReg (regByte r)).toList := by
  simp

/-- A jump through a register in range writes PC, whichever way it goes. -/
theorem effect_jump {i : Instr} {s : State} (taken : Bool) (r : Reg) (self : i.mnemonic.selfManagesPc = true) :
    Effect s i (if taken then s.setPc (s.reg r) else s.setPc (s.pc + 2)) := by
  cases taken with
  | true => exact .jumps _ self
  | false => exact .jumps _ self

/-- Every instruction, well formed or not, in every state: it reports its first bad operand and does nothing else, or has none and
takes its effect. -/
theorem exec_cases (i : Instr) (s : State) : FaultsOrTakesEffect i s := by
  cases i with
  | hlt => exact .inr ⟨rfl, _, rfl, .halts⟩
  | ret => exact .inr ⟨rfl, _, rfl, .returns⟩
  | push a => exact faultsOrTakesEffect_of_withReg (fun _ => rfl) rfl .pushes
  | pop a => exact faultsOrTakesEffect_of_withReg (fun _ => rfl) rfl .pops
  | prn a => exact faultsOrTakesEffect_of_withReg (fun _ => rfl) rfl fun _ => .emits _ _ rfl
  | pra a => exact faultsOrTakesEffect_of_withReg (fun _ => rfl) rfl fun _ => .emits _ _ rfl
  | call a => exact faultsOrTakesEffect_of_withReg (fun _ => rfl) rfl .calls
  | jmp a => exact faultsOrTakesEffect_of_withReg (fun _ => rfl) rfl fun r => effect_jump true r rfl
  | jeq a => exact faultsOrTakesEffect_of_withReg (fun _ => rfl) rfl fun r => effect_jump _ r rfl
  | jne a => exact faultsOrTakesEffect_of_withReg (fun _ => rfl) rfl fun r => effect_jump _ r rfl
  | jgt a => exact faultsOrTakesEffect_of_withReg (fun _ => rfl) rfl fun r => effect_jump _ r rfl
  | jlt a => exact faultsOrTakesEffect_of_withReg (fun _ => rfl) rfl fun r => effect_jump _ r rfl
  | jle a => exact faultsOrTakesEffect_of_withReg (fun _ => rfl) rfl fun r => effect_jump _ r rfl
  | jge a => exact faultsOrTakesEffect_of_withReg (fun _ => rfl) rfl fun r => effect_jump _ r rfl
  | not a => exact faultsOrTakesEffect_of_withReg (fun _ => rfl) rfl fun r => .writesReg _ (mem_toList_asReg_regByte r)
  | ldi a imm8 =>
    exact faultsOrTakesEffect_of_withReg (j := (.ldi · imm8)) (fun _ => rfl) rfl fun r => .writesReg _ (mem_toList_asReg_regByte r)
  | st a b => exact faultsOrTakesEffect_of_withRegs (fun _ _ => rfl) rfl .stores
  | add a b => exact faultsOrTakesEffect_of_withRegs (fun _ _ => rfl) rfl fun r _ => .writesReg _ (mem_toList_asReg_regByte r)
  | mul a b => exact faultsOrTakesEffect_of_withRegs (fun _ _ => rfl) rfl fun r _ => .writesReg _ (mem_toList_asReg_regByte r)
  | mod a b =>
    refine faultsOrTakesEffect_of_withRegs (fun _ _ => rfl) rfl fun r q => ?_
    split
    · exact .modHalts r q ‹_›
    · exact .writesReg _ (mem_toList_asReg_regByte r)
  | cmp a b => exact faultsOrTakesEffect_of_withRegs (fun _ _ => rfl) rfl .compares
  | and a b => exact faultsOrTakesEffect_of_withRegs (fun _ _ => rfl) rfl fun r _ => .writesReg _ (mem_toList_asReg_regByte r)
  | or a b => exact faultsOrTakesEffect_of_withRegs (fun _ _ => rfl) rfl fun r _ => .writesReg _ (mem_toList_asReg_regByte r)
  | xor a b => exact faultsOrTakesEffect_of_withRegs (fun _ _ => rfl) rfl fun r _ => .writesReg _ (mem_toList_asReg_regByte r)
  | shl a b => exact faultsOrTakesEffect_of_withRegs (fun _ _ => rfl) rfl fun r _ => .writesReg _ (mem_toList_asReg_regByte r)
  | shr a b => exact faultsOrTakesEffect_of_withRegs (fun _ _ => rfl) rfl fun r _ => .writesReg _ (mem_toList_asReg_regByte r)

/-- An instruction with a register operand out of range reports the first one and does nothing else (60_exceptions.md R151, R154). -/
theorem exec_of_badOperand {i : Instr} {w : Byte} (hw : i.badOperand = some w) (s : State) :
    exec i s = .next (s.raise (.invalidRegisterIndex w)) := by
  obtain ⟨w', hw', h⟩ | ⟨hnone, -⟩ := exec_cases i s
  · cases hw.symm.trans hw'
    exact h
  · cases hw.symm.trans hnone

/-- What executing an instruction has done, when it answers `t`. -/
theorem effect_of_exec {i : Instr} {s t : State} (h : exec i s = .next t) :
    (∃ w, i.badOperand = some w ∧ t = s.raise (.invalidRegisterIndex w)) ∨ (i.badOperand = none ∧ Effect s i t) := by
  obtain ⟨w, hw, h'⟩ | ⟨hnone, t', h', heff⟩ := exec_cases i s
  · cases h.symm.trans h'
    exact .inl ⟨w, hw, rfl⟩
  · cases h.symm.trans h'
    exact .inr ⟨hnone, heff⟩

/-- Settles O10: the instruction is the raising of its fatal condition, which leaves all else as it was. -/
theorem badRegisterOperandFaults : Obligations.BadRegisterOperandFaults := fun _ s w hw =>
  ⟨_, exec_of_badOperand hw s, s.raise_faultTaken (.invalidRegisterIndex w)⟩

/-- Settles O11: each of the ten has the operands opa, opb in this order, so the first bad one is opa, or opb when opa is in range. -/
theorem opaIsCheckedBeforeOpb : Obligations.OpaIsCheckedBeforeOpb := by
  intro f s a b hf
  have hops : (f a b).regOperands = [a, b] := by
    simp only [List.mem_cons, List.not_mem_nil, or_false] at hf
    obtain rfl | rfl | rfl | rfl | rfl | rfl | rfl | rfl | rfl | rfl := hf <;> rfl
  refine ⟨fun ha => badRegisterOperandFaults _ s a ?_, fun ha hb => badRegisterOperandFaults _ s b ?_⟩
  · simp [Instr.badOperand, hops, ha]
  · simp [Instr.badOperand, hops, ha, hb]

end Sys2Proof.Machine
end

section
/-! What each kind of effect leaves: registers, memory, FL, run state, fault record and PC, each by one lemma over `Effect`. -/

namespace Sys2Proof.Machine

/-- The stack pointer after a decrement (43_stack_call.md R134). -/
@[simp] theorem State.reg_decSp_same (s : State) : s.decSp.reg 7 = s.reg 7 - 1 := State.reg_setSp_same s _

@[simp] theorem State.reg_decSp_ne {s : State} {r : Reg} (h : r ≠ 7) : s.decSp.reg r = s.reg r := State.reg_setSp_ne h

/-- The stack pointer after an increment (43_stack_call.md R134). -/
@[simp] theorem State.reg_incSp_same (s : State) : s.incSp.reg 7 = s.reg 7 + 1 := State.reg_setSp_same s _

@[simp] theorem State.reg_incSp_ne {s : State} {r : Reg} (h : r ≠ 7) : s.incSp.reg r = s.reg r := State.reg_setSp_ne h

/-- A push stores at the lowered stack pointer (43_stack_call.md R130). -/
theorem State.decSp_setTop (s : State) (v : Byte) : s.decSp.setTop v = s.decSp.writeByte (s.reg 7 - 1).toNat v := by
  rw [State.setTop, State.sp_eq_reg, State.reg_decSp_same]

/-- A push writes the cell below the stack top and the stack pointer, and nothing else (43_stack_call.md R130, R132). -/
theorem State.onlyRegsAndCellWritten_push {s : State} (h : s.mem.wf = true) (v : Byte) :
    OnlyRegsAndCellWritten [7] (s.reg 7 - 1) s (s.decSp.setTop v) := by
  rw [State.decSp_setTop]
  exact ⟨fun r hr => State.reg_decSp_ne (List.ne_of_not_mem_cons hr), rfl,
    State.sameMemoryExcept_writeByte (s := s.decSp) h (s.reg 7 - 1) v, ⟨rfl, rfl⟩, ⟨rfl, rfl, rfl⟩, rfl⟩

/-- A pushed byte is what stands at the new stack top. -/
theorem State.readByte_push {s : State} (h : s.mem.wf = true) (v : Byte) :
    (s.decSp.setTop v).readByte (s.reg 7 - 1).toNat = v := by
  rw [State.decSp_setTop]
  exact State.readByte_writeByte_same (s := s.decSp) h (s.reg 7 - 1) v

/-- Only the registers listed for the instruction change (10_state.md R12). -/
theorem Effect.sameRegsExcept {s t : State} {i : Instr} (h : Effect s i t) : SameRegsExcept (regsWritten i) s t := by
  intro r hr
  cases h with
  | writesReg v listed => exact State.reg_setReg_ne fun heq => hr (heq ▸ listed)
  | compares | stores | emits | halts | modHalts | jumps => rfl
  | pushes | calls => exact State.reg_decSp_ne (List.ne_of_not_mem_cons hr)
  | returns => exact State.reg_incSp_ne (List.ne_of_not_mem_cons hr)
  | pops q =>
    have hne : r ≠ 7 ∧ r ≠ q := by simpa [regsWritten] using hr
    obtain ⟨h7, hq⟩ := hne
    exact (State.reg_incSp_ne h7).trans (State.reg_setReg_ne hq)

/-- Only the cell the instruction's access row names changes (20_memory.md R32). -/
theorem Effect.readByte_eq {s t : State} {i : Instr} (h : Effect s i t) (hwf : s.mem.wf = true) {a : Nat}
    (ha : ∀ c, cellWritten s i = some c → a % 256 ≠ c.toNat) : t.readByte a = s.readByte a := by
  cases h with
  | writesReg | compares | emits | halts | modHalts | jumps | pops | returns => rfl
  | stores r q => exact State.sameMemoryExcept_writeByte hwf (s.reg r) _ a (ha _ (by simp [cellWritten]))
  | pushes | calls =>
    obtain ⟨-, -, hmem, -⟩ := State.onlyRegsAndCellWritten_push hwf _
    exact hmem a (ha _ rfl)

/-- Every effect keeps the canonical form of memory. -/
theorem Effect.mem_wf {s t : State} {i : Instr} (h : Effect s i t) (hwf : s.mem.wf = true) : t.mem.wf = true := by
  cases h with
  | writesReg | compares | emits | halts | modHalts | jumps | pops | returns => exact hwf
  | stores | pushes | calls => exact Memory.write_wf hwf _ _

/-- FL changes by CMP alone, and to the flags of a compare (10_state.md R17). -/
theorem Effect.fl_cases {s t : State} {i : Instr} (h : Effect s i t) :
    t.fl = s.fl ∨ ∃ r q : Reg, i = .cmp (regByte r) (regByte q) ∧ t.fl = compareFlags (s.reg r) (s.reg q) := by
  cases h with
  | compares r q => exact .inr ⟨r, q, rfl, rfl⟩
  | writesReg | stores | emits | halts | modHalts | jumps | pushes | pops | calls | returns => exact .inl rfl

/-- The run state changes by HLT and by MOD with a zero divisor alone, to HALTED (40_instruction_cycle.md R77). -/
theorem Effect.run_cases {s t : State} {i : Instr} (h : Effect s i t) :
    t.run = s.run ∨
    (t.run = .halted ∧ (i = .hlt ∨ ∃ r q : Reg, i = .mod (regByte r) (regByte q) ∧ s.reg q = 0)) := by
  cases h with
  | halts => exact .inr ⟨rfl, .inl rfl⟩
  | modHalts r q zero => exact .inr ⟨rfl, .inr ⟨r, q, rfl, zero⟩⟩
  | writesReg | compares | stores | emits | jumps | pushes | pops | calls | returns => exact .inl rfl

/-- No effect touches the fault record. -/
theorem Effect.fault_eq {s t : State} {i : Instr} (h : Effect s i t) : t.fault = s.fault := by
  cases h <;> rfl

/-- No effect touches the latched opcode byte. -/
theorem Effect.ir_eq {s t : State} {i : Instr} (h : Effect s i t) : t.ir = s.ir := by
  cases h <;> rfl

/-- The cycle's advance moves PC past the opcode and the operands, unless the instruction writes PC itself
(40_instruction_cycle.md R74, R75). -/
theorem Effect.pc_eq {s t : State} {i : Instr} (h : Effect s i t) (hself : i.mnemonic.selfManagesPc = false) :
    t.pc = s.pc + BitVec.ofNat 8 (1 + i.mnemonic.format.operandCount) := by
  cases h with
  | writesReg | compares | stores | halts | modHalts | pushes | pops => exact State.advance_pc_eq_add _ _
  | emits kind v one =>
    rw [one]
    exact State.advance_pc_eq_add _ 1
  | jumps target self => cases hself.symm.trans self
  | calls | returns => cases hself

/-- Settles O37: a fatal condition changes no register, and every effect only those listed. -/
theorem registersWrittenOnlyAsListed : Obligations.RegistersWrittenOnlyAsListed := by
  intro i s t h
  obtain ⟨w, -, rfl⟩ | ⟨-, heff⟩ := effect_of_exec h
  · exact fun _ _ => rfl
  · exact heff.sameRegsExcept

/-- Settles O38: a fatal condition changes no byte of memory, and every effect only the cell listed. -/
theorem memoryWrittenOnlyAsListed : Obligations.MemoryWrittenOnlyAsListed := by
  intro i s t hwf h a ha
  obtain ⟨w, -, rfl⟩ | ⟨-, heff⟩ := effect_of_exec h
  · rfl
  · exact heff.readByte_eq hwf ha

end Sys2Proof.Machine
end

section
/-! What a step can do, said once, and what follows of the run state, the fault record, PC and FL (40_instruction_cycle.md R75 to R77,
60_exceptions.md R154). -/

namespace Sys2Proof.Machine

/-- A step taken was taken while RUNNING, and rejected the opcode byte, reported a bad operand, or took the instruction's effect. -/
theorem cases_of_step {s t : State} (h : step s = .next t) :
    s.run = .running ∧
    ((∃ e, s.nextInstr = .error e ∧ t = s.fetch.raise .unsupportedInstruction) ∨
     (∃ i w, s.nextInstr = .ok i ∧ i.badOperand = some w ∧ t = s.fetch.raise (.invalidRegisterIndex w)) ∨
     ∃ i, s.nextInstr = .ok i ∧ i.badOperand = none ∧ Effect s.fetch i t) := by
  obtain ⟨-, hs⟩ | ⟨-, hs⟩ | ⟨-, hs⟩ | ⟨hrun, i, hi, hs⟩ | ⟨hrun, e, he, hs⟩ := step_cases s
  · cases hs.symm.trans h
  · cases hs.symm.trans h
  · cases hs.symm.trans h
  · refine ⟨hrun, .inr ?_⟩
    obtain ⟨w, hw, ht⟩ | ⟨hnone, heff⟩ := effect_of_exec (hs.symm.trans h)
    · exact .inl ⟨i, w, hi, hw, ht⟩
    · exact .inr ⟨i, hi, hnone, heff⟩
  · cases hs.symm.trans h
    exact ⟨hrun, .inl ⟨e, he, rfl⟩⟩

/-- A machine that is not RUNNING takes no step (R77). -/
theorem step_ne_next {s : State} (h : s.run ≠ .running) (t : State) : step s ≠ .next t := fun hs =>
  h (cases_of_step hs).1

/-- A running machine takes a step (R76). -/
theorem exists_step_of_running {s : State} (h : s.run = .running) : ∃ t, step s = .next t := by
  obtain ⟨hrun, -⟩ | ⟨hrun, -⟩ | ⟨hrun, -⟩ | ⟨-, i, -, hs⟩ | ⟨-, e, -, hs⟩ := step_cases s
  · cases h.symm.trans hrun
  · cases h.symm.trans hrun
  · cases h.symm.trans hrun
  · exact hs ▸ exec_next i s.fetch
  · exact ⟨_, hs⟩

/-- A running machine whose opcode byte is rejected raises UnsupportedInstruction (60_exceptions.md R150). -/
theorem step_eq_raise_of_error {s : State} {e : DecodeError} (hrun : s.run = .running) (he : s.nextInstr = .error e) :
    step s = .next (s.fetch.raise .unsupportedInstruction) := by
  simp only [step, State.stopped, hrun, State.fetch_latched, he, rejected]

/-- After an instruction's effect a machine that was running is RUNNING or HALTED, never FAULTED. -/
theorem Effect.run_of_running {s t : State} {i : Instr} (h : Effect s i t) (hrun : s.run = .running) :
    t.run = .running ∨ t.run = .halted :=
  h.run_cases.imp (·.trans hrun) And.left

/-- The run state after a step is RUNNING, HALTED or FAULTED (R77). -/
theorem run_ne_notStarted_of_step {s t : State} (h : step s = .next t) : t.run ≠ .notStarted := by
  obtain ⟨hrun, ⟨e, -, rfl⟩ | ⟨i, w, -, -, rfl⟩ | ⟨i, -, -, heff⟩⟩ := cases_of_step h
  · simp
  · simp
  · obtain hr | hr := heff.run_of_running hrun <;> simp [hr]

/-- A step that ends FAULTED is the raising of a fatal condition on the fetched state. -/
theorem step_faulted {s t : State} (h : step s = .next t) (ht : t.run = .faulted) :
    ∃ f : FatalCondition, t = s.fetch.raise f ∧ (f.code = 1 ∧ f.operand = 0 ∨ f.code = 2 ∧ 7 < f.operand.toNat) := by
  obtain ⟨hrun, ⟨e, -, rfl⟩ | ⟨i, w, -, hw, rfl⟩ | ⟨i, -, -, heff⟩⟩ := cases_of_step h
  · exact ⟨_, rfl, .inl ⟨rfl, rfl⟩⟩
  · exact ⟨_, rfl, .inr ⟨rfl, Instr.lt_of_badOperand hw⟩⟩
  · obtain hr | hr := heff.run_of_running hrun <;> cases ht.symm.trans hr

/-- A step that does not end FAULTED took the effect of the instruction fetched. -/
theorem step_not_faulted {s t : State} (h : step s = .next t) (ht : t.run ≠ .faulted) :
    ∃ i, s.nextInstr = .ok i ∧ Effect s.fetch i t := by
  obtain ⟨-, ⟨e, -, rfl⟩ | ⟨i, w, -, -, rfl⟩ | ⟨i, hi, -, heff⟩⟩ := cases_of_step h
  · cases ht rfl
  · cases ht rfl
  · exact ⟨i, hi, heff⟩

/-- The byte at PC is the opcode of the instruction fetched. -/
theorem opcodeOf_of_nextInstr {s : State} {i : Instr} (h : s.nextInstr = .ok i) :
    opcodeOf i.mnemonic = s.readByte s.pc.toNat := by
  rw [State.nextInstr, decode] at h
  split at h
  · cases h
  · cases h
    rw [mnemonic_instr]
    exact mnemonicOf_eq_some.mp ‹_›

/-- Settles O7: a running machine answers a next state, only a running one does, and each other run state has its stop. -/
theorem stepTakenExactlyWhileRunning : Obligations.StepTakenExactlyWhileRunning := by
  intro s
  refine ⟨⟨exists_step_of_running, fun ⟨t, h⟩ => (cases_of_step h).1⟩, fun hr => ?_, fun hr => ?_, fun hr => ?_⟩ <;>
    simp only [step, State.stopped, hr]

/-- Settles O8: HALTED is left by the effects of HLT and of MOD with a zero divisor alone, FAULTED by the two ways to raise a fatal
condition alone. -/
theorem runLeavesRunningOnlyByHaltOrFatal : Obligations.RunLeavesRunningOnlyByHaltOrFatal := by
  intro s t h
  obtain ⟨hrun, -⟩ := cases_of_step h
  refine ⟨⟨?halted, ?ofHalting⟩, ⟨?faulted, ?ofFatal⟩, run_ne_notStarted_of_step h⟩
  case halted =>
    intro ht
    obtain ⟨i, hi, heff⟩ := step_not_faulted h (by simp [ht])
    obtain hr | ⟨-, rfl | ⟨a, b, rfl, hzero⟩⟩ := heff.run_cases
    · cases ht.symm.trans (hr.trans hrun)
    · exact .inl hi
    · exact .inr ⟨a, b, hi, hzero⟩
  case ofHalting =>
    rintro (hi | ⟨a, b, hi, hzero⟩)
    · cases h.symm.trans ((step_eq_exec_fetch hrun hi).trans (exec_hlt _))
      rfl
    · cases h.symm.trans ((step_eq_exec_fetch hrun hi).trans (exec_mod a b _))
      rw [if_pos (show s.fetch.reg b = 0 from hzero)]
      rfl
  case faulted =>
    intro ht
    obtain ⟨-, ⟨e, he, -⟩ | ⟨i, w, hi, hw, -⟩ | ⟨i, -, -, heff⟩⟩ := cases_of_step h
    · exact .inl ⟨e, he⟩
    · exact .inr ⟨i, w, hi, hw⟩
    · obtain hr | hr := heff.run_of_running hrun <;> cases ht.symm.trans hr
  case ofFatal =>
    rintro (⟨e, he⟩ | ⟨i, w, hi, hw⟩)
    · cases h.symm.trans (step_eq_raise_of_error hrun he)
      rfl
    · cases h.symm.trans ((step_eq_exec_fetch hrun hi).trans (exec_of_badOperand hw _))
      rfl

/-- A row's opcode is not 0x00, and its two high bits count at most two operand bytes. -/
theorem opcodeOf_bounds (m : Mnemonic) : opcodeOf m ≠ 0 ∧ (opcodeOf m).toNat < 0xC0 := by
  refine ⟨by cases m <;> decide, ?_⟩
  have hcount := opcodeOf_div_64 m
  obtain hn | hn | hn := m.format.operandCount_cases <;> omega

/-- Settles O9: a byte of no row is rejected, and the fatal condition raised on the fetched state leaves all else as it was. -/
theorem unsupportedOpcodeFaults : Obligations.UnsupportedOpcodeFaults := by
  refine ⟨fun s hrun hnone => ?_, ?_⟩
  · have hrejected : s.nextInstr = _ := decode_eq_unsupportedOpcode hnone _ _
    exact ⟨_, step_eq_raise_of_error hrun hrejected, s.fetch.raise_faultTaken .unsupportedInstruction⟩
  · rintro w hw m rfl
    obtain ⟨hzero, hlt⟩ := opcodeOf_bounds m
    obtain h | h := hw
    · exact hzero h
    · omega

/-- Settles O12: such a step raises a fatal condition on the fetched state (`step_faulted`). -/
theorem fatalStepIsPrecise : Obligations.FatalStepIsPrecise := by
  intro s t h ht
  obtain ⟨f, rfl, hf⟩ := step_faulted h ht
  exact ⟨s.fetch.raise_faultTaken f, rfl, rfl, hf⟩

/-- Settles O13: the latched opcode is the fetched instruction's, so its bit 4 says that the cycle advances PC, and bits 7:6 by how
much. -/
theorem autoAdvanceUsesLatchedOpcode : Obligations.AutoAdvanceUsesLatchedOpcode := by
  intro s t h ht
  obtain ⟨i, hi, heff⟩ := step_not_faulted h ht
  have hir : t.ir = s.readByte s.pc.toNat := heff.ir_eq
  refine ⟨hir, fun hbit => ?_⟩
  rw [hir, ← opcodeOf_of_nextInstr hi, opcodeOf_bit4] at hbit
  rw [hir, ← opcodeOf_of_nextInstr hi, opcodeOf_div_64, heff.pc_eq hbit]
  simp [BitVec.toNat_add, Nat.add_assoc]

/-- Each outcome of a compare is one of the values FL can reach (10_state.md R17). -/
theorem flagsLegal_compareFlags (x y : Byte) : flagsLegal (compareFlags x y) := by
  obtain ⟨-, h⟩ | ⟨-, h⟩ | ⟨-, h⟩ := compareFlags_cases x y <;> simp [flagsLegal, h]

/-- Settles O25: a fatal condition leaves FL, and of the effects CMP's alone writes it. -/
theorem onlyCompareChangesFlags : Obligations.OnlyCompareChangesFlags := by
  intro s t h
  obtain ⟨-, ⟨e, -, rfl⟩ | ⟨i, w, -, -, rfl⟩ | ⟨i, hi, -, heff⟩⟩ := cases_of_step h
  · exact ⟨fun hne => absurd rfl hne, id⟩
  · exact ⟨fun hne => absurd rfl hne, id⟩
  · obtain hfl | ⟨r, q, rfl, hfl⟩ := heff.fl_cases
    · exact ⟨fun hne => absurd hfl hne, fun hlegal => hfl ▸ hlegal⟩
    · exact ⟨fun _ => ⟨r, q, hi⟩, fun _ => hfl ▸ flagsLegal_compareFlags _ _⟩

/-- Settles O36: HLT's effect is the halt and the advance, and a halted machine takes no step. -/
theorem haltStopsTheRun : Obligations.HaltStopsTheRun := fun s =>
  ⟨_, exec_hlt s, rfl, step_ne_next (by simp), State.advance_pc_eq_add _ 0, fun _ => rfl, rfl, fun _ => rfl, rfl,
    ⟨rfl, rfl, rfl⟩, rfl⟩

end Sys2Proof.Machine
end

section
/-! The invariant: it holds after reset, of every launch and along every sequence of steps and host moves (10_state.md sections 3, 4
and 9; 70_reset_and_hazards.md sections 1 and 3). -/

namespace Sys2Proof.Machine

/-- Unless FAULTED the fault record agrees with the run state when it is zero. -/
theorem recordLegal_of_zero {s : State} (hrun : s.run ≠ .faulted) (hzero : s.fault = .zero) : recordLegal s :=
  ⟨fun _ => hzero, fun h => absurd h hrun⟩

/-- Of a started run the last clause of the invariant says nothing. -/
theorem resetUnlessStarted_of_ne {s : State} (h : s.run ≠ .notStarted) : resetUnlessStarted s := fun hn => absurd hn h

/-- The invariant of a state that is reset but for memory, and perhaps started. -/
theorem inv_of_eq_reset {s : State} (hwf : s.mem.wf = true) (hrun : s.run = .notStarted ∨ s.run = .running)
    (h : s = { State.reset with mem := s.mem, run := s.run }) : s.Inv := by
  have hfl : s.fl = 0 := by rw [h]; rfl
  have hfault : s.fault = .zero := by rw [h]; rfl
  refine ⟨hwf, .inl hfl, recordLegal_of_zero ?_ hfault, fun hn => ?_⟩
  · obtain hr | hr := hrun <;> simp [hr]
  · rw [hn] at h
    exact h

/-- Settles O16: reset is reset. -/
theorem resetMeetsInvariant : Obligations.ResetMeetsInvariant := inv_of_eq_reset rfl (.inl rfl) rfl

/-- Settles O17: a launch is reset with the image stored, which keeps the form of memory, and started (`launch_eq_some`). -/
theorem launchMeetsInvariant : Obligations.LaunchMeetsInvariant := by
  intro image s h
  obtain ⟨-, rfl⟩ := launch_eq_some.mp h
  exact inv_of_eq_reset (State.storeBytes_wf rfl 0 image) (.inr rfl) rfl

/-- Settles O15: reset is not RUNNING, and a launch, which needs an image that fits, is reset but for memory and the run state. -/
theorem launchControlState : Obligations.LaunchControlState := by
  refine ⟨rfl, step_ne_next (by decide), fun image => ⟨fun hlong => ?_, fun s h => ?_⟩⟩
  · refine Option.eq_none_iff_forall_ne_some.mpr fun s h => ?_
    obtain ⟨hfits, -⟩ := launch_eq_some.mp h
    omega
  · obtain ⟨-, rfl⟩ := launch_eq_some.mp h
    exact ⟨rfl, rfl, rfl, rfl, rfl, rfl, rfl⟩

/-- Settles O18: a fatal condition writes the record that belongs to FAULTED and leaves memory and FL; an effect keeps the form of
memory, the values of FL and the zero record, and does not end FAULTED. -/
theorem stepKeepsInvariant : Obligations.StepKeepsInvariant := by
  rintro s t ⟨hwf, hfl, ⟨hzero, -⟩, -⟩ h
  obtain ⟨-, hflags⟩ := onlyCompareChangesFlags s t h
  have hstarted := resetUnlessStarted_of_ne (run_ne_notStarted_of_step h)
  by_cases ht : t.run = .faulted
  · obtain ⟨f, rfl, hf⟩ := step_faulted h ht
    exact ⟨hwf, hfl, ⟨fun hne => absurd rfl hne, fun _ => ⟨rfl, rfl, hf⟩⟩, hstarted⟩
  · obtain ⟨hrun, -⟩ := cases_of_step h
    obtain ⟨i, -, heff⟩ := step_not_faulted h ht
    have hfault : t.fault = .zero := heff.fault_eq.trans (hzero (by simp [hrun]))
    exact ⟨heff.mem_wf hwf, hflags hfl, recordLegal_of_zero ht hfault, hstarted⟩

/-- Every host move keeps the invariant: loading writes memory in its form, and the start finds the zero record of reset. -/
theorem host_keeps_inv {s t : State} {m : HostMove} (hs : s.Inv) (h : s.host m = some t) : t.Inv := by
  obtain ⟨hwf, -, -, hreset⟩ := hs
  obtain ⟨-, rfl⟩ | ⟨hrun, addr, v, -, rfl⟩ | ⟨hrun, -, rfl⟩ := State.host_eq_some.mp h
  · exact resetMeetsInvariant
  · refine inv_of_eq_reset (Memory.write_wf hwf addr v) (.inl hrun) ?_
    rw [hreset hrun]
    rfl
  · refine inv_of_eq_reset hwf (.inr rfl) ?_
    rw [hreset hrun]

/-- Settles O43: induction on the moves, with `stepKeepsInvariant` for the core's and `host_keeps_inv` for the host's. -/
theorem evolutionsKeepInvariant : Obligations.EvolutionsKeepInvariant := by
  have keeps {s t : State} {k : Nat} (hs : s.Inv) (h : Evolves s k t) : t.Inv := by
    induction h with
    | here => exact hs
    | core _ move ih => exact stepKeepsInvariant _ _ ih move
    | host m _ move ih => exact host_keeps_inv ih move
  exact ⟨fun _ _ _ hs h => keeps hs h, fun _ _ h => keeps resetMeetsInvariant h⟩

/-- Once the run is started the host has no move but reset (70_reset_and_hazards.md R170, R175). -/
theorem host_of_started {s t : State} {m : HostMove} (hrun : s.run ≠ .notStarted) (h : s.host m = some t) :
    m = .reset ∧ t = State.reset := by
  obtain hreset | ⟨hn, -⟩ | ⟨hn, -⟩ := State.host_eq_some.mp h
  · exact hreset
  · exact absurd hn hrun
  · exact absurd hn hrun

/-- From a stopped machine every evolution stays there or has passed through reset. -/
theorem evolves_of_stopped {s t : State} {k : Nat} (hrun : s.run ≠ .running) (hstarted : s.run ≠ .notStarted)
    (h : Evolves s k t) : t = s ∨ ∃ j, j < k ∧ Evolves State.reset j t := by
  induction h with
  | here => exact .inl rfl
  | core _ move ih =>
    obtain rfl | ⟨j, hj, hev⟩ := ih
    · exact absurd move (step_ne_next hrun _)
    · exact .inr ⟨j + 1, by omega, hev.core move⟩
  | host m _ move ih =>
    obtain rfl | ⟨j, hj, hev⟩ := ih
    · obtain ⟨-, rfl⟩ := host_of_started hstarted move
      exact .inr ⟨0, by omega, .here _⟩
    · exact .inr ⟨j + 1, by omega, hev.host m move⟩

/-- Settles O42: `State.host_eq_some` gives the moves before the start, `host_of_started` those after, and `evolves_of_stopped` what
comes of a stopped machine. -/
theorem hostMovesOnlyAtTheirTime : Obligations.HostMovesOnlyAtTheirTime := by
  intro s
  refine ⟨rfl, fun hrun => ⟨fun addr v => ?load, ?start⟩, fun hrun m t h => (host_of_started hrun h).left,
    fun hstop k t h => ?stopped⟩
  case load =>
    have hmove := State.host_eq_some.mpr (.inr (.inl ⟨hrun, addr, v, rfl, rfl⟩))
    refine ⟨s.writeByte addr v, hmove, rfl, fun hwf => ⟨?_, fun a ha => ?_⟩⟩
    · rw [State.readByte_writeByte hwf, if_pos rfl]
    · rw [State.readByte_writeByte hwf, if_neg ha]
  case start => exact State.host_eq_some.mpr (.inr (.inr ⟨hrun, rfl, rfl⟩))
  case stopped => obtain hr | hr := hstop <;> exact evolves_of_stopped (by simp [hr]) (by simp [hr]) h

end Sys2Proof.Machine
end

section
/-! How a run ends: it is one path, so it ends one way at most (60_exceptions.md R159). -/

namespace Sys2Proof.Machine

/-- A machine that is not RUNNING reaches itself alone. -/
theorem Reaches.eq_of_stopped {s t : State} {k : Nat} (h : Reaches s k t) (hrun : s.run ≠ .running) : k = 0 ∧ t = s := by
  cases h with
  | here => exact ⟨rfl, rfl⟩
  | more first _ => exact absurd first (step_ne_next hrun _)

/-- One more step at the end of a run. -/
theorem Reaches.snoc {s t u : State} {k : Nat} (h : Reaches s k t) (last : step t = .next u) : Reaches s (k + 1) u := by
  induction h with
  | here => exact .more last (.here _)
  | more first _ ih => exact .more first (ih last)

/-- The longer of two runs from a state continues the shorter one. -/
theorem Reaches.remainder {s t u : State} {k j : Nat} (ht : Reaches s k t) (hu : Reaches s (k + j) u) : Reaches t j u := by
  induction ht with
  | here => rwa [Nat.zero_add] at hu
  | @more s t' _ k first _ ih =>
    rw [Nat.add_right_comm] at hu
    cases hu with
    | more first' rest =>
      cases first.symm.trans first'
      exact ih rest

/-- Two stopped machines reached from one state are the same. -/
theorem Reaches.stopped_unique {s t u : State} {k j : Nat} (ht : Reaches s k t) (hu : Reaches s j u)
    (htrun : t.run ≠ .running) (hurun : u.run ≠ .running) : t = u := by
  obtain ⟨d, rfl⟩ | ⟨d, rfl⟩ := (Nat.le_total k j).imp Nat.exists_eq_add_of_le Nat.exists_eq_add_of_le
  · exact ((ht.remainder hu).eq_of_stopped htrun).2.symm
  · exact ((hu.remainder ht).eq_of_stopped hurun).2

/-- A run that reaches a stopped machine does not hang: that machine takes no further step. -/
theorem not_hangs_of_reaches_stopped {s t : State} {k : Nat} (h : Reaches s k t) (hrun : t.run ≠ .running) : ¬ Hangs s := by
  intro hangs
  obtain ⟨u, hu, -⟩ := hangs (k + 1)
  obtain ⟨hone, -⟩ := (h.remainder hu).eq_of_stopped hrun
  cases hone

/-- A started run that never stops can be stepped any number of times. -/
theorem hangs_of_never_stopped {s : State} (hrun : s.run ≠ .notStarted) (hterm : ¬ Terminates s) (hfault : ¬ Faults s) :
    Hangs s := by
  have running {k : Nat} {t : State} (h : Reaches s k t) (hstarted : t.run ≠ .notStarted) : t.run = .running := by
    cases hr : t.run with
    | notStarted => exact absurd hr hstarted
    | running => rfl
    | halted => exact absurd ⟨k, t, h, hr⟩ hterm
    | faulted => exact absurd ⟨k, t, h, hr⟩ hfault
  intro k
  induction k with
  | zero => exact ⟨s, .here s, running (.here s) hrun⟩
  | succ k ih =>
    obtain ⟨t, ht, htrun⟩ := ih
    obtain ⟨u, hu⟩ := exists_step_of_running htrun
    exact ⟨u, ht.snoc hu, running (ht.snoc hu) (run_ne_notStarted_of_step hu)⟩

/-- A run that is not started does none of the three. -/
theorem started_of_ends_or_hangs {s : State} (h : Terminates s ∨ Faults s ∨ Hangs s) : s.run ≠ .notStarted := by
  intro hrun
  have stays {k : Nat} {t : State} (ht : Reaches s k t) : t.run = .notStarted := by
    obtain ⟨-, rfl⟩ := ht.eq_of_stopped (by simp [hrun])
    exact hrun
  obtain ⟨k, t, ht, hr⟩ | ⟨k, t, ht, hr⟩ | hangs := h
  · cases (stays ht).symm.trans hr
  · cases (stays ht).symm.trans hr
  · obtain ⟨t, ht, hr⟩ := hangs 0
    cases (stays ht).symm.trans hr

/-- Settles O19: a started run that neither terminates nor faults goes on for ever, and a run reaches one stopped machine at most. -/
theorem everyRunTerminatesFaultsOrHangs : Obligations.EveryRunTerminatesFaultsOrHangs := by
  intro s
  refine ⟨⟨fun hrun => ?_, started_of_ends_or_hangs⟩, ?_, ?_, ?_⟩
  · by_cases hterm : Terminates s
    · exact .inl hterm
    · by_cases hfault : Faults s
      · exact .inr (.inl hfault)
      · exact .inr (.inr (hangs_of_never_stopped hrun hterm hfault))
  · rintro ⟨⟨k, t, ht, htrun⟩, j, u, hu, hurun⟩
    obtain rfl := ht.stopped_unique hu (by simp [htrun]) (by simp [hurun])
    cases htrun.symm.trans hurun
  · rintro ⟨⟨k, t, ht, htrun⟩, hangs⟩
    exact not_hangs_of_reaches_stopped ht (by simp [htrun]) hangs
  · rintro ⟨⟨k, t, ht, htrun⟩, hangs⟩
    exact not_hangs_of_reaches_stopped ht (by simp [htrun]) hangs

end Sys2Proof.Machine
end

section
/-! Shifts, MOD and CMP (41_alu.md R92, R97 to R99): the values written, over the frame that every ALU instruction has. -/

namespace Sys2Proof.Machine

@[simp] theorem toNat_aluShl (x y : Byte) : (aluShl x y).toNat = x.toNat * 2 ^ y.toNat % 256 := BitVec.toNat_ofNat ..

@[simp] theorem toNat_aluShr (x y : Byte) : (aluShr x y).toNat = x.toNat / 2 ^ y.toNat :=
  Nat.mod_eq_of_lt ((Nat.div_le_self _ _).trans_lt x.isLt)

@[simp] theorem toNat_aluMod (x y : Byte) : (aluMod x y).toNat = x.toNat % y.toNat :=
  Nat.mod_eq_of_lt ((Nat.mod_le _ _).trans_lt x.isLt)

/-- Settles O22: both write one register and are advanced, and neither product nor quotient masks the amount. -/
theorem shiftsUseWholeAmount : Obligations.ShiftsUseWholeAmount := fun s a b =>
  ⟨(exec_writes_reg (exec_shl a b s)).imp fun _ ⟨hnext, hreg, hrest⟩ => ⟨hnext, hreg ▸ toNat_aluShl _ _, hrest⟩,
   (exec_writes_reg (exec_shr a b s)).imp fun _ ⟨hnext, hreg, hrest⟩ => ⟨hnext, hreg ▸ toNat_aluShr _ _, hrest⟩⟩

/-- Settles O23: by the divisor, MOD writes one register or only halts, and is advanced either way. -/
theorem modRemainderOrSilentHalt : Obligations.ModRemainderOrSilentHalt := by
  intro s a b
  have hexec := exec_mod a b s
  refine ⟨fun hne => ?divides, fun hzero => ?halts⟩
  case divides =>
    rw [if_neg hne] at hexec
    exact (exec_writes_reg hexec).imp fun _ ⟨hnext, hreg, hrest⟩ => ⟨hnext, hreg ▸ toNat_aluMod _ _, hrest⟩
  case halts =>
    rw [if_pos hzero] at hexec
    exact ⟨_, hexec, rfl, State.advance_pc_eq_add _ 2, fun _ => rfl, rfl, fun _ => rfl, rfl, ⟨rfl, rfl, rfl⟩, rfl⟩

/-- The flags of a compare, by the ordering of the two values (R99). -/
theorem compareFlags_of_ordering (x y : Byte) :
    (x.toNat = y.toNat → compareFlags x y = 0x01) ∧
    (x.toNat > y.toNat → compareFlags x y = 0x02) ∧
    (x.toNat < y.toNat → compareFlags x y = 0x04) := by
  obtain ⟨h, hfl⟩ | ⟨h, hfl⟩ | ⟨h, hfl⟩ := compareFlags_cases x y
  · exact ⟨fun _ => hfl, by omega, by omega⟩
  · exact ⟨by omega, fun _ => hfl, by omega⟩
  · exact ⟨by omega, by omega, fun _ => hfl⟩

/-- Settles O24: FL takes the flags of the compare, and CMP is advanced. -/
theorem compareSetsExactlyOneFlag : Obligations.CompareSetsExactlyOneFlag := by
  intro s a b
  obtain ⟨heq, hgt, hlt⟩ := compareFlags_of_ordering (s.reg a) (s.reg b)
  exact ⟨_, exec_cmp a b s, heq, hgt, hlt, State.advance_pc_eq_add _ 2, fun _ => rfl, fun _ => rfl, ⟨rfl, rfl⟩,
    ⟨rfl, rfl, rfl⟩, rfl⟩

end Sys2Proof.Machine
end

section
/-! The stack and subroutine instructions (43_stack_call.md R130 to R136): what PUSH, POP, CALL and RET leave, and the two round
trips. -/

namespace Sys2Proof.Machine

/-- Lowering a byte by one counts modulo 256. -/
theorem toNat_sub_one (x : Byte) : (x - 1).toNat = (x.toNat + 255) % 256 := by
  rw [BitVec.toNat_sub, Nat.add_comm]
  rfl

/-- Raising a byte by one counts modulo 256. -/
theorem toNat_add_one (x : Byte) : (x + 1).toNat = (x.toNat + 1) % 256 := BitVec.toNat_add x 1

/-- Any register after the stack pointer's decrement, which register 7 shows (D12). -/
theorem State.reg_decSp (s : State) (r : Reg) : s.decSp.reg r = if r = 7 then s.reg 7 - 1 else s.reg r :=
  State.reg_setSp s r _

@[simp] theorem State.reg_setTop (s : State) (v : Byte) (r : Reg) : (s.setTop v).reg r = s.reg r := rfl

/-- What a push put on the stack is what stands on top. -/
@[simp] theorem State.top_push {s : State} (h : s.mem.wf = true) (v : Byte) : (s.decSp.setTop v).top = v := by
  rw [State.top, State.sp_eq_reg, State.reg_setTop, State.reg_decSp_same, State.readByte_push h]

/-- Popping into a register other than 7 leaves the byte there and the stack pointer one higher. -/
theorem State.reg_pop_of_ne {s : State} {a : Reg} (ha : a ≠ 7) (v : Byte) :
    (s.setReg a v).incSp.reg a = v ∧ (s.setReg a v).incSp.reg 7 = s.reg 7 + 1 := by
  rw [State.reg_incSp_ne ha, State.reg_setReg_same, State.reg_incSp_same, State.reg_setReg_ne ha.symm]
  exact ⟨rfl, rfl⟩

/-- Popping into register 7 leaves the byte plus one (D12). -/
theorem State.reg_pop_seven (s : State) (v : Byte) : (s.setReg 7 v).incSp.reg 7 = v + 1 := by
  rw [State.reg_incSp_same, State.reg_setReg_same]

theorem regsWritten_pop (a : Reg) : regsWritten (.pop (regByte a)) = [7, a] := by
  simp [regsWritten]

/-- POP changes no register but 7 and the one it names. -/
theorem State.sameRegsExcept_pop (s : State) (a : Reg) : SameRegsExcept [7, a] s ((s.setReg a s.top).incSp.advance 1) := by
  rw [← regsWritten_pop]
  exact (Effect.pops a).sameRegsExcept

/-- Settles O27: PUSH is a push of the register read after the decrement, advanced. -/
theorem pushWritesBelowStackTop : Obligations.PushWritesBelowStackTop := fun s a hwf =>
  ⟨_, exec_push a s, (congrArg BitVec.toNat s.reg_decSp_same).trans (toNat_sub_one _),
    (State.readByte_push hwf _).trans (s.reg_decSp a), State.advance_pc_eq_add _ 1, State.onlyRegsAndCellWritten_push hwf _⟩

/-- Settles O28: the increment comes after the register is written, which register 7 as the operand shows. -/
theorem popReadsStackTop : Obligations.PopReadsStackTop := by
  intro s a
  refine ⟨_, exec_pop a s, fun ha => ?other, fun ha => ?seven, State.advance_pc_eq_add _ 1, State.sameRegsExcept_pop s a, rfl,
    fun _ => rfl, ⟨rfl, rfl⟩, ⟨rfl, rfl, rfl⟩, rfl⟩
  case other =>
    obtain ⟨hreg, hsp⟩ := State.reg_pop_of_ne (s := s) ha s.top
    exact ⟨hreg, (congrArg BitVec.toNat hsp).trans (toNat_add_one _)⟩
  case seven =>
    subst ha
    exact (congrArg BitVec.toNat (s.reg_pop_seven s.top)).trans (toNat_add_one _)

/-- Settles O29: CALL is a push of PC + 2, and PC takes the register read after the decrement. -/
theorem callPushesReturnAddress : Obligations.CallPushesReturnAddress := fun s a hwf =>
  ⟨_, exec_call a s, (congrArg BitVec.toNat s.reg_decSp_same).trans (toNat_sub_one _),
    (congrArg BitVec.toNat (State.readByte_push hwf _)).trans (BitVec.toNat_add s.pc 2), s.reg_decSp a,
    State.onlyRegsAndCellWritten_push hwf _⟩

/-- Settles O30: RET is the pop into PC. -/
theorem returnPopsPc : Obligations.ReturnPopsPc := fun s =>
  ⟨_, exec_ret s, rfl, (congrArg BitVec.toNat (s.setPc s.top).reg_incSp_same).trans (toNat_add_one _),
    Effect.returns.sameRegsExcept, rfl, fun _ => rfl, ⟨rfl, rfl⟩, ⟨rfl, rfl, rfl⟩, rfl⟩

/-- Settles O31: the byte on top after the push is the register's, and the increment undoes the decrement. -/
theorem pushPopRoundTrip : Obligations.PushPopRoundTrip := by
  intro s a b hwf ha hb
  let t := (s.decSp.setTop (s.decSp.reg a)).advance 1
  have htop : t.top = s.reg a := (State.top_push hwf _).trans (State.reg_decSp_ne ha)
  obtain ⟨hvalue, hsp⟩ := State.reg_pop_of_ne (s := t) hb t.top
  refine ⟨t, _, exec_push a s, exec_pop b t, hvalue.trans htop, ?regs, ?pc⟩
  case regs =>
    intro r hr
    by_cases h7 : r = 7
    · have hback : t.reg 7 + 1 = s.reg 7 := (congrArg (· + 1) s.reg_decSp_same).trans (BitVec.sub_add_cancel _ _)
      exact h7 ▸ hsp.trans hback
    · exact (State.sameRegsExcept_pop t b r (by simp_all)).trans (State.reg_decSp_ne h7)
  case pc =>
    have hpc : t.pc = s.pc + 2 := State.advance_pc_eq_add _ 1
    calc ((t.setReg b t.top).incSp.advance 1).pc
      _ = t.pc + 2 := State.advance_pc_eq_add _ 1
      _ = s.pc + 2 + 2 := by rw [hpc]
      _ = s.pc + 4 := BitVec.add_assoc s.pc 2 2

/-- Settles O32: RET pops the address that CALL pushed, and the increment undoes the decrement. -/
theorem callReturnRoundTrip : Obligations.CallReturnRoundTrip := by
  intro s a hwf
  refine ⟨_, exec_call a s, fun u hsp hcell => ⟨_, exec_ret u, ?pc, ?sp⟩⟩
  case pc =>
    have htop : u.top = s.pc + 2 := by
      rw [State.top, State.sp_eq_reg, hsp, hcell]
      exact State.top_push hwf _
    exact htop
  case sp =>
    calc (u.setPc u.top).incSp.reg 7
      _ = u.reg 7 + 1 := (u.setPc u.top).reg_incSp_same
      _ = s.reg 7 - 1 + 1 := congrArg (· + 1) (hsp.trans s.reg_decSp_same)
      _ = s.reg 7 := BitVec.sub_add_cancel _ _

end Sys2Proof.Machine
end

section
/-! A store and the next fetch: every fetch reads memory afresh (20_memory.md R41, 70_reset_and_hazards.md R181). -/

namespace Sys2Proof.Machine

/-- Reading and storing at addresses that are bytes: the cell stored and no other gives the value. -/
theorem State.readByte_writeByte_byte {s : State} (h : s.mem.wf = true) (cell addr v : Byte) :
    (s.writeByte cell.toNat v).readByte addr.toNat = if addr = cell then v else s.readByte addr.toNat := by
  rw [State.readByte_writeByte h, Nat.mod_eq_of_lt addr.isLt, Nat.mod_eq_of_lt cell.isLt]
  exact if_congr BitVec.toNat_inj rfl rfl

/-- The three fetched bytes stand at PC, PC + 1 and PC + 2 as bytes (40_instruction_cycle.md R70). -/
theorem State.fetch_eq_readByte (s : State) :
    s.fetch.ir = s.readByte s.pc.toNat ∧ s.fetch.opa = s.readByte (s.pc + 1).toNat ∧ s.fetch.opb = s.readByte (s.pc + 2).toNat :=
  ⟨rfl, (s.readByte_mod_256 (s.pc.toNat + 1)).symm.trans (by rw [BitVec.toNat_add]; rfl),
    (s.readByte_mod_256 (s.pc.toNat + 2)).symm.trans (by rw [BitVec.toNat_add]; rfl)⟩

/-- Settles O40: the step is ST on the fetched state, which completes whatever it overwrites, and the next fetch reads the memory it
leaves. -/
theorem storeSeenByNextFetch : Obligations.StoreSeenByNextFetch := by
  intro s a b hwf hrun hi
  have hstep := (step_eq_exec_fetch hrun hi).trans (exec_st a b s.fetch)
  refine ⟨_, hstep, hrun, State.advance_pc_eq_add _ 2, ?_⟩
  generalize ht : (s.fetch.writeByte (s.fetch.reg a).toNat (s.fetch.reg b)).advance 2 = t
  have hpc : t.pc = s.pc + 3 := by rw [← ht]; exact State.advance_pc_eq_add _ 2
  have hread (addr : Byte) : t.readByte addr.toNat = if addr = s.reg a then s.reg b else s.readByte addr.toNat := by
    rw [← ht]
    exact State.readByte_writeByte_byte (s := s.fetch) hwf (s.reg a) addr (s.reg b)
  obtain ⟨hir, hopa, hopb⟩ := t.fetch_eq_readByte
  rw [hir, hopa, hopb, hpc, BitVec.add_assoc, BitVec.add_assoc]
  exact ⟨hread _, hread _, hread _⟩

end Sys2Proof.Machine
end

section
/-! The output trace: no instruction reads it, and each appends one record at most (10_state.md R22). -/

namespace Sys2Proof.Machine

/-- `f` does the same whatever the trace of `s` held, and appends the same, at most one record. -/
def AppendsUnread (f : State → Result) (s : State) : Prop :=
  ∃ (t : State) (new : List OutRecord), new.length ≤ 1 ∧
    ∀ before : List OutRecord, f { s with out := before } = .next { t with out := before ++ new }

/-- An effect that commutes with a change of the trace appends nothing. -/
theorem appendsUnread_of_commutes {k : State → State} {s : State}
    (hk : ∀ before, k { s with out := before } = { k s with out := before }) : AppendsUnread (fun s => .next (k s)) s :=
  ⟨k s, [], Nat.zero_le 1, fun before => by rw [List.append_nil]; exact congrArg _ (hk before)⟩

/-- An output of a register appends its record, whatever the trace held. -/
theorem appendsUnread_emit (kind : OutKind) (r : Reg) (n : Nat) (s : State) :
    AppendsUnread (fun s => .next ((s.emit kind (s.reg r)).advance n)) s :=
  ⟨s.advance n, [⟨kind, s.reg r⟩], Nat.le_refl 1, fun _ => rfl⟩

/-- Raising a fatal condition appends nothing. -/
theorem appendsUnread_raise (f : FatalCondition) (s : State) : AppendsUnread (fun s => .next (s.raise f)) s :=
  appendsUnread_of_commutes fun _ => rfl

/-- The check of one register operand does not read the trace. -/
theorem appendsUnread_withReg {a : Byte} {k : Reg → State → State} {s : State}
    (hk : ∀ r, AppendsUnread (fun s => .next (k r s)) s) : AppendsUnread (fun s => withReg a s fun r => k r s) s := by
  unfold withReg
  cases asReg a with
  | none => exact appendsUnread_raise _ s
  | some r => exact hk r

/-- The check of two register operands does not read the trace. -/
theorem appendsUnread_withRegs {a b : Byte} {k : Reg → Reg → State → State} {s : State}
    (hk : ∀ r q, AppendsUnread (fun s => .next (k r q s)) s) : AppendsUnread (fun s => withRegs a b s fun r q => k r q s) s := by
  unfold withRegs
  cases asReg a with
  | none => exact appendsUnread_raise _ s
  | some r =>
    cases asReg b with
    | none => exact appendsUnread_raise _ s
    | some q => exact hk r q

/-- A writing ALU operation does not read the trace. -/
theorem appendsUnread_aluWrite (f : Byte → Byte → Byte) (a b : Byte) (s : State) : AppendsUnread (aluWrite f a b) s :=
  appendsUnread_withRegs fun _ _ => appendsUnread_of_commutes fun _ => rfl

/-- A jump by a predicate of FL does not read the trace. -/
theorem appendsUnread_jumpWhen (taken : Byte → Bool) (a : Byte) (s : State) :
    AppendsUnread (fun s => jumpWhen (taken s.fl) a s) s := by
  refine appendsUnread_withReg fun r => appendsUnread_of_commutes fun before => ?_
  cases taken s.fl <;> rfl

/-- Every instruction does the same whatever the trace held, and appends at most one record. -/
theorem exec_appendsUnread (i : Instr) (s : State) : AppendsUnread (exec i) s := by
  cases i with
  | hlt => exact appendsUnread_of_commutes fun _ => rfl
  | ret => exact appendsUnread_of_commutes fun _ => rfl
  | push a => exact appendsUnread_withReg fun _ => appendsUnread_of_commutes fun _ => rfl
  | pop a => exact appendsUnread_withReg fun _ => appendsUnread_of_commutes fun _ => rfl
  | prn a => exact appendsUnread_withReg fun r => appendsUnread_emit .dec r 1 s
  | pra a => exact appendsUnread_withReg fun r => appendsUnread_emit .chr r 1 s
  | call a => exact appendsUnread_withReg fun _ => appendsUnread_of_commutes fun _ => rfl
  | jmp a => exact appendsUnread_jumpWhen (fun _ => true) a s
  | jeq a => exact appendsUnread_jumpWhen takenJeq a s
  | jne a => exact appendsUnread_jumpWhen takenJne a s
  | jgt a => exact appendsUnread_jumpWhen takenJgt a s
  | jlt a => exact appendsUnread_jumpWhen takenJlt a s
  | jle a => exact appendsUnread_jumpWhen takenJle a s
  | jge a => exact appendsUnread_jumpWhen takenJge a s
  | not a => exact appendsUnread_withReg fun _ => appendsUnread_of_commutes fun _ => rfl
  | ldi a imm8 => exact appendsUnread_withReg fun _ => appendsUnread_of_commutes fun _ => rfl
  | st a b => exact appendsUnread_withRegs fun _ _ => appendsUnread_of_commutes fun _ => rfl
  | add a b => exact appendsUnread_aluWrite aluAdd a b s
  | mul a b => exact appendsUnread_aluWrite aluMul a b s
  | mod a b =>
    refine appendsUnread_withRegs fun r q => appendsUnread_of_commutes fun before => ?_
    have hdivisor : State.reg { s with out := before } q = s.reg q := rfl
    rw [hdivisor]
    split <;> rfl
  | cmp a b => exact appendsUnread_withRegs fun _ _ => appendsUnread_of_commutes fun _ => rfl
  | and a b => exact appendsUnread_aluWrite aluAnd a b s
  | or a b => exact appendsUnread_aluWrite aluOr a b s
  | xor a b => exact appendsUnread_aluWrite aluXor a b s
  | shl a b => exact appendsUnread_aluWrite aluShl a b s
  | shr a b => exact appendsUnread_aluWrite aluShr a b s

/-- A step of a running machine does the same whatever the trace held: the fetch does not read it either. -/
theorem step_appendsUnread {s : State} (hrun : s.run = .running) : AppendsUnread step s := by
  cases hi : s.nextInstr with
  | ok i =>
    obtain ⟨t, new, hnew, hexec⟩ := exec_appendsUnread i s.fetch
    exact ⟨t, new, hnew, fun before => (step_eq_exec_fetch (s := { s with out := before }) hrun hi).trans (hexec before)⟩
  | error e =>
    obtain ⟨t, new, hnew, hraise⟩ := appendsUnread_raise .unsupportedInstruction s.fetch
    exact ⟨t, new, hnew, fun before => (step_eq_raise_of_error (s := { s with out := before }) hrun hi).trans (hraise before)⟩

/-- Settles O39: the step taken is the one with the trace that stands there. -/
theorem outputIsAppendOnlyAndNeverRead : Obligations.OutputIsAppendOnlyAndNeverRead := by
  intro s t h
  obtain ⟨hrun, -⟩ := cases_of_step h
  obtain ⟨t', new, hnew, hstep⟩ := step_appendsUnread hrun
  cases h.symm.trans (hstep s.out)
  exact ⟨new, hnew, rfl, hstep⟩

/-- The decimal numeral of a byte: one to three digits, no leading zero, and the digits' number is the byte (44_data_movement.md
R145). -/
theorem decimalDigits_spec (v : Byte) :
    1 ≤ (decimalDigits v).length ∧ (decimalDigits v).length ≤ 3 ∧ (∀ d ∈ decimalDigits v, 48 ≤ d ∧ d ≤ 57) ∧
    ((decimalDigits v).head? = some 48 → (decimalDigits v).length = 1) ∧
    (decimalDigits v).foldl (fun acc d => 10 * acc + (d - 48)) 0 = v.toNat := by
  have hlt : v.toNat < 256 := v.isLt
  unfold decimalDigits
  by_cases hone : v.toNat < 10
  · simp [hone]
    omega
  · by_cases htwo : v.toNat < 100
    · simp [hone, htwo]
      omega
    · simp [hone, htwo]
      omega

/-- Settles O41: a DEC record is the numeral (`decimalDigits_spec`) and LF, and rendering a trace distributes over joining. -/
theorem renderingOfTheTrace : Obligations.RenderingOfTheTrace :=
  ⟨fun v => ⟨decimalDigits v, rfl, decimalDigits_spec v⟩, fun _ => rfl, rfl, fun r => List.flatMap_singleton OutRecord.render r,
    fun _ _ => List.flatMap_append⟩

end Sys2Proof.Machine
end
